-- ==== Sys2Proof/Config.lean ====
section
/-! DEFINITION. What an implementation fixes and the free values (00_scope.md section 3). No proof can
see the value of an opaque constant here, so a claim holds for every admissible value. -/

namespace Sys2Proof

/-- One integer that is a timestamp. DESIGN CHOICE, safe: no value is fixed (log 1). -/
opaque Config.timestampWitness : Int

/-- Which other integers are timestamps. DESIGN CHOICE, safe: no value is fixed (log 1). -/
opaque Config.timestampOther : Int → Bool

/-- The parameter `T` as a set of integers: any set but the empty one (R8; U8). -/
def Config.isTimestamp (t : Int) : Bool :=
  decide (t = Config.timestampWitness) || Config.timestampOther t

/-- The timestamp type `T`, an opaque integer the CORE only copies (R8). Which integers it has, and so
its width, its signedness and its units, is OPEN (92_eei_decisions.md D3; log 1). -/
abbrev Timestamp := { t : Int // Config.isTimestamp t = true }

/-- Some timestamp: which one, no proof can see. -/
def Config.someTimestamp : Timestamp :=
  ⟨Config.timestampWitness, by simp [Config.isTimestamp]⟩

/-- `CHUNK_MAX - 1`, any natural number (R9). DESIGN CHOICE, safe: no value is fixed (log 2). -/
opaque Config.chunkMaxLessOne : Nat

/-- `CHUNK_MAX`, a constant of the CORE with `CHUNK_MAX >= 1` (R9). -/
def Config.chunkMax : Nat := Config.chunkMaxLessOne + 1

/-- What the platform clock shows at the `k`-th draw. DESIGN CHOICE, safe: a free value (log 3). -/
opaque Config.clock : Nat → Int

/-- The clock as a timestamp. -/
def Config.clockReading (k : Nat) : Timestamp :=
  if h : Config.isTimestamp (Config.clock k) = true then ⟨Config.clock k, h⟩ else Config.someTimestamp

/-- `NOW`, the `k`-th draw: any sequence of timestamps that does not decrease (R12;
92_eei_decisions.md D6; U6). A clock that goes back is held where it was. -/
def Config.now : Nat → Timestamp
  | 0 => Config.clockReading 0
  | k + 1 =>
    if (Config.now k).val ≤ (Config.clockReading (k + 1)).val then Config.clockReading (k + 1)
    else Config.now k

end Sys2Proof
end

