-- ==== Sys2Proof/Word.lean ====
section
/-! DEFINITION. The stream element (00_scope.md R7). -/

namespace Sys2Proof

/-- A stream element, "an 8-bit value" (R7). -/
abbrev Byte := BitVec 8

end Sys2Proof
end

