-- ==== Sys2Proof/Syntax.lean ====
section
/-! DEFINITION. The instructions: one constructor per row of spec/opcode_table.json (30_encoding.md R98). -/

namespace Sys2Proof

/-- The rows of the opcode table.
BYTE rows are input bytes (R65 to R88), their fields carried and never examined (R89, R90).
STEP rows are the (state, byte class) transitions (R97); an operand `b` is the byte the row takes.
CMD rows are the transaction-level operations, selected by name (R98); an instance is named by its
place in the order of creation. DESIGN CHOICE, safe: the names of instances (log 11). -/
inductive Instr
  /-- `DATA`, 0x00..0x7F (R65). -/
  | data (v : BitVec 7)
  /-- `ST_8n`, 0x80..0x8F (R66). -/
  | st8n (n : BitVec 4)
  /-- `ST_9n`, 0x90..0x9F (R67). -/
  | st9n (n : BitVec 4)
  /-- `ST_An`, 0xA0..0xAF (R68). -/
  | stAn (n : BitVec 4)
  /-- `ST_Bn`, 0xB0..0xBF (R69). -/
  | stBn (n : BitVec 4)
  /-- `ST_Cn`, 0xC0..0xCF (R70). -/
  | stCn (n : BitVec 4)
  /-- `ST_Dn`, 0xD0..0xDF (R71). -/
  | stDn (n : BitVec 4)
  /-- `ST_En`, 0xE0..0xEF (R72). -/
  | stEn (n : BitVec 4)
  /-- `SYSEX_START`, 0xF0 (R73). -/
  | sysexStart
  /-- `SC_F1` (R74). -/
  | scF1
  /-- `SC_F2` (R75). -/
  | scF2
  /-- `SC_F3` (R76). -/
  | scF3
  /-- `UNDEF_F4` (R77). -/
  | undefF4
  /-- `UNDEF_F5` (R78). -/
  | undefF5
  /-- `SC_F6` (R79). -/
  | scF6
  /-- `EOX_F7` (R80). -/
  | eoxF7
  /-- `RT_F8` (R81). -/
  | rtF8
  /-- `UNDEF_F9` (R82). -/
  | undefF9
  /-- `RT_FA` (R83). -/
  | rtFA
  /-- `RT_FB` (R84). -/
  | rtFB
  /-- `RT_FC` (R85). -/
  | rtFC
  /-- `UNDEF_FD` (R86). -/
  | undefFD
  /-- `RT_FE` (R87). -/
  | rtFE
  /-- `RT_FF` (R88). -/
  | rtFF
  /-- `HDR_SYSEX_START` (R121). -/
  | hdrSysexStart
  /-- `HDR_STATUS` on the byte `b` (R122 to R125). -/
  | hdrStatus (b : Byte)
  /-- `HDR_DATA_RS` on the byte `b` (R126 to R129). -/
  | hdrDataRs (b : Byte)
  /-- `HDR_DATA_NORS` on the byte `b` (R130). -/
  | hdrDataNors (b : Byte)
  /-- `SX_RESTART` (R141). -/
  | sxRestart
  /-- `SX_EOX` (R143). -/
  | sxEox
  /-- `SX_APPEND` on the byte `b` (R142). -/
  | sxAppend (b : Byte)
  /-- `PRM_APPEND` on the byte `b` (R150 to R152). -/
  | prmAppend (b : Byte)
  /-- `NEW(sink)` (R113, R200). -/
  | new (sink : Nat)
  /-- `FEED(data, offset, count, ts)` on instance `h` (R100). -/
  | feed (h : Nat) (data : List Byte) (offset count : Int) (ts : Timestamp)
  /-- `DISCARD` of instance `h` (R113, R202). -/
  | discard (h : Nat)
  /-- `CHUNK(bytes, ts?)` (R160). -/
  | chunk (bytes : List Byte) (ts : Option Timestamp)
  deriving DecidableEq, Repr

/-- The two-operand form `FEED(bytes, ts)`: offset 0 and count `|bytes|` (R110). -/
def Instr.feedAll (h : Nat) (bytes : List Byte) (ts : Timestamp) : Instr :=
  .feed h bytes 0 bytes.length ts

end Sys2Proof
end

