-- ==== Sys2Proof/Machine/State.lean ====
section
/-! DEFINITION. The state of the machine as plain data (10_state.md), the reasons a step can stop, and
the state after reset (10_state.md R35, 70_reset_and_hazards.md R200). -/

namespace Sys2Proof.Machine

/-- The parser state `st`, exactly one of three (10_state.md R21). -/
inductive ParserState
  /-- Awaiting a status byte or a running-status-governed data byte. -/
  | header
  /-- Accumulating a fixed-length channel/common message. -/
  | params
  /-- Accumulating an open SysEx frame. -/
  | sysEx
  deriving DecidableEq, Repr

/-- A message handed to the sink, with its timestamp (10_state.md R27; 20_memory.md R53). -/
structure Emission where
  /-- The bytes of the message. -/
  msg : List Byte
  /-- The timestamp of the FEED that completed it (40_feed_command.md R106). -/
  ts : Timestamp
  deriving DecidableEq, Repr

/-- The two byte buffers of an instance (10_state.md R23, R25). -/
inductive BufferName
  /-- The message buffer. -/
  | mbuf
  /-- The SysEx buffer. -/
  | sxbuf
  deriving DecidableEq, Repr

/-- The registers of one Framer instance (10_state.md R20) and its observation `out` (R27). -/
structure Framer where
  /-- The parser state (R21). -/
  st : ParserState
  /-- The running status: `none` is `rs_valid = 0`, `some b` is `rs_valid = 1`, `rs = b` (R22; log 7). -/
  rs : Option Byte
  /-- The expected message length, 2 bits (R24). -/
  explen : Fin 4
  /-- The message buffer (R23). -/
  mbuf : List Byte
  /-- The SysEx buffer, without a capacity (R25; 00_scope.md R10; log 5). -/
  sxbuf : List Byte
  /-- What the instance has emitted, oldest first (R27). -/
  out : List Emission
  deriving DecidableEq, Repr

/-- The FEED buffer as (index, byte) cells (20_memory.md R41). Canonical form: the indices are
0, 1, 2, … in order. An unlisted index does not exist and reads as nothing (log 22). -/
abbrev Memory := List Host.Cell

/-- The operands and locals of a FEED in progress (10_state.md R26). -/
structure FeedCall where
  /-- The caller's buffer. -/
  data : Memory
  /-- The index of the next window byte; the end of the window when every byte was stepped and the call
  has not returned yet (70_reset_and_hazards.md R206; log 12). -/
  cursor : Nat
  /-- The excluded end of the window (40_feed_command.md R102). -/
  stop : Nat
  /-- The call's timestamp (R100). -/
  ts : Timestamp
  deriving DecidableEq, Repr

/-- A live Framer instance: its sink (40_feed_command.md R113), its registers, the FEED in progress. -/
structure Instance where
  /-- The name of the sink bound at NEW (log 11). -/
  sink : Nat
  /-- The registers. -/
  framer : Framer
  /-- The FEED in progress, if any. It is in progress until it returns, so also while the sink runs
  (70_reset_and_hazards.md R206). -/
  call : Option FeedCall
  deriving DecidableEq, Repr

/-- A place in the order of creation: an instance, or what is left of one after DISCARD: nothing but
the messages its sink was given (70_reset_and_hazards.md R202; 20_memory.md R54; log 26). -/
inductive Slot
  /-- A live instance. -/
  | live (i : Instance)
  /-- A discarded instance. -/
  | discarded (sink : Nat) (out : List Emission)
  deriving DecidableEq, Repr

/-- A chunk with its timestamp (44_packetizer.md R160). -/
structure Packet where
  /-- The bytes of the chunk. -/
  bytes : List Byte
  /-- Its timestamp (R163). -/
  ts : Timestamp
  deriving DecidableEq, Repr

/-- What the environment does next (70_reset_and_hazards.md R216).
DESIGN CHOICE, safe: the environment's calls are a list in State (log 13). -/
inductive HostEvent
  /-- It calls NEW. -/
  | new (sink : Nat)
  /-- It calls FEED on instance `h`. -/
  | feed (h : Nat) (data : List Byte) (offset count : Int) (ts : Timestamp)
  /-- It calls DISCARD on instance `h`. -/
  | discard (h : Nat)
  /-- It calls CHUNK. -/
  | chunk (bytes : List Byte) (ts : Option Timestamp)
  /-- It lets the FEED in progress on instance `h` go on: to its next window byte, or, after the last,
  to its return (calls on distinct instances interleave in any way, 20_memory.md R52). -/
  | turn (h : Nat)
  deriving DecidableEq, Repr

/-- The state of the machine. -/
structure State where
  /-- The instances in order of creation (00_scope.md R13). -/
  slots : List Slot
  /-- What each CHUNK call returned, oldest first (00_scope.md R18). -/
  chunkCalls : List (List Packet)
  /-- The model's own: the instance the byte being stepped belongs to (log 13). -/
  current : Nat
  /-- The model's own: what the environment does, oldest first (log 13). -/
  host : List HostEvent
  /-- The model's own: how many values of NOW were drawn (log 3). -/
  nowDraws : Nat
  deriving DecidableEq, Repr

/-- The faults. The CORE raises none (60_exceptions.md R180). -/
inductive Fault
  /-- Raised by the fetch when the cursor of a FEED stands outside its buffer: no such index exists
  (20_memory.md R41). Safe: met only in states that break the invariant (log 22). -/
  | readOutsideBuffer
  deriving DecidableEq, Repr

/-- The refusals: inputs the spec gives no meaning (93_implementation_defined.md part 1). -/
inductive Refusal
  /-- Raised by the dispatcher for an instruction without a meaning; no arm uses it. Safe. -/
  | notModelled (mnemonic : String)
  /-- Raised by FEED on an instance whose FEED is in progress, from its sink or from another context
  (U1, U2; 20_memory.md R50; 60_exceptions.md R194). Safe: the run stops (log 14). -/
  | overlappingFeed
  /-- Raised by FEED and DISCARD on an instance discarded or never created (U12). Safe (log 16). -/
  | notLive
  /-- Raised by DISCARD of an instance whose FEED is in progress (60_exceptions.md R192). Safe (log 15). -/
  | discardInsideFeed
  /-- Raised by a BYTE or STEP row when no FEED presents a byte (10_state.md R34). Safe (log 20). -/
  | noFeedInProgress
  /-- Raised by a STEP row whose condition fails: the row does not apply (30_encoding.md R97, R98).
  Safe (log 19). -/
  | rowDoesNotApply
  deriving DecidableEq, Repr

/-- The registers right after NEW (10_state.md R35). DESIGN CHOICE, unsafe: `explen`, for which the
spec gives no value, is 0 (log 8). -/
def Framer.reset : Framer :=
  { st := .header, rs := none, explen := 0, mbuf := [], sxbuf := [], out := [] }

/-- An instance right after NEW (40_feed_command.md R113). -/
def Instance.fresh (sink : Nat) : Instance :=
  { sink := sink, framer := Framer.reset, call := none }

/-- The machine right after reset: reset is creation (70_reset_and_hazards.md R200). DESIGN CHOICE,
unsafe: one instance, bound to sink 0 (log 10). -/
def State.reset : State :=
  { slots := [.live (Instance.fresh 0)], chunkCalls := [], current := 0, host := [], nowDraws := 0 }

end Sys2Proof.Machine
end

