-- ==== Sys2Proof/Machine/Operands.lean ====
section
/-! DEFINITION. Operand forms: the length function, the FEED window, slices (30_encoding.md R64;
40_feed_command.md R101, R102; 00_scope.md R16). -/

namespace Sys2Proof.Machine

/-- `LEN`, the total message length a status byte gives, 0 for an unrecognised value (30_encoding.md R64). -/
def lenOf (b : Byte) : Fin 4 :=
  if b ∈ [0xF6#8, 0xF8#8, 0xFA#8, 0xFB#8, 0xFC#8, 0xFE#8, 0xFF#8] then 1
  else if b ∈ [0xF1#8, 0xF3#8] then 2
  else if b = 0xF2#8 then 3
  else if b &&& 0xF0#8 ∈ [0xC0#8, 0xD0#8] then 2
  else if b &&& 0xF0#8 ∈ [0x80#8, 0x90#8, 0xA0#8, 0xB0#8, 0xE0#8] then 3
  else 0

/-- The window of a FEED: first index and excluded end, or `none` when a precondition fails
(40_feed_command.md R101, R102). The sum is exact (00_scope.md R11). -/
def windowOf (offset count : Int) (len : Nat) : Option (Nat × Nat) :=
  if count ≤ 0 ∨ offset < 0 ∨ (len : Int) ≤ offset then none
  else some (offset.toNat, (min (offset + count) len).toNat)

/-- `slice(l, i, j)`, the elements from index `i` up to but not including `j` (00_scope.md R16). -/
def slice (l : List Byte) (i j : Nat) : List Byte := (l.drop i).take (j - i)

end Sys2Proof.Machine
end

