-- ==== Sys2Proof/Machine/Flags.lean ====
section
/-! DEFINITION. The flags and the tests on a byte: `rs_valid`, the code of `st`, and the conditions of
the STEP rows (10_state.md R21, R22; 30_encoding.md R60, R97). -/

namespace Sys2Proof.Machine

/-- The 2-bit code of `st` for realisations that need one (10_state.md R21); 0b11 is never produced. -/
def ParserState.code : ParserState → BitVec 2
  | .header => 0b00#2
  | .params => 0b01#2
  | .sysEx => 0b10#2

/-- The flag `rs_valid` (10_state.md R22). -/
def Framer.rsValid (f : Framer) : Bool := f.rs.isSome

/-- A status byte: the high bit set, value >= 0x80 (30_encoding.md R60). -/
def isStatus (b : Byte) : Bool := decide (0x80#8 ≤ b)

/-- The condition of HDR_SYSEX_START on the byte 0xF0 (41_header_state.md R121). -/
def Framer.inHeader (f : Framer) : Bool := decide (f.st = .header)

/-- The condition of the SysEx rows on the state (42_sysex_state.md R140). -/
def Framer.inSysEx (f : Framer) : Bool := decide (f.st = .sysEx)

/-- The condition of PRM_APPEND, any byte (43_params_state.md R150). -/
def Framer.inParams (f : Framer) : Bool := decide (f.st = .params)

/-- The condition of HDR_STATUS (41_header_state.md R122). -/
def Framer.takesStatus (b : Byte) (f : Framer) : Bool :=
  f.inHeader && isStatus b && decide (b ≠ 0xF0#8)

/-- The condition of HDR_DATA_RS (41_header_state.md R126). -/
def Framer.takesDataRs (b : Byte) (f : Framer) : Bool :=
  f.inHeader && !isStatus b && f.rsValid

/-- The condition of HDR_DATA_NORS (41_header_state.md R130). -/
def Framer.takesDataNors (b : Byte) (f : Framer) : Bool :=
  f.inHeader && !isStatus b && !f.rsValid

/-- The condition of SX_APPEND (42_sysex_state.md R142). -/
def Framer.takesAppend (b : Byte) (f : Framer) : Bool :=
  f.inSysEx && decide (b ≠ 0xF0#8) && decide (b ≠ 0xF7#8)

end Sys2Proof.Machine
end

