-- ==== Sys2Proof/Machine/Ops.lean ====
section
/-! DEFINITION. The named operations: emission, the FEED buffer, access to instances, and the shared
shape of the BYTE and STEP meanings. There is no exception to take and none to return from
(60_exceptions.md R180, R193, R194), so no operation for either stands here. -/

namespace Sys2Proof.Machine

/-- The contents of a buffer. -/
def Framer.buffer (src : BufferName) (f : Framer) : List Byte :=
  match src with
  | .mbuf => f.mbuf
  | .sxbuf => f.sxbuf

/-- Set a buffer to the empty list. -/
def Framer.clear (src : BufferName) (f : Framer) : Framer :=
  match src with
  | .mbuf => { f with mbuf := [] }
  | .sxbuf => { f with sxbuf := [] }

/-- `emit(m, ts)` with `m` the contents of a buffer: append `(m, ts)` to `out`, then empty the buffer
(40_feed_command.md R105). -/
def Framer.emit (src : BufferName) (ts : Timestamp) (f : Framer) : Framer :=
  Framer.clear src { f with out := f.out ++ [{ msg := f.buffer src, ts := ts }] }

/-- The bytes at indices `k`, `k + 1`, … -/
def Memory.ofBytesFrom (k : Nat) : List Byte → Memory
  | [] => []
  | b :: bs => (k, b) :: Memory.ofBytesFrom (k + 1) bs

/-- A caller's buffer: index 0 is the first byte (20_memory.md R41). -/
def Memory.ofBytes (bs : List Byte) : Memory := Memory.ofBytesFrom 0 bs

/-- The read of one byte; `none` where the index does not exist (20_memory.md R41, R42). -/
def Memory.read (m : Memory) (a : Nat) : Option Byte :=
  match m with
  | [] => none
  | (k, b) :: rest => if k = a then some b else Memory.read rest a

/-- The canonical form of a buffer: every index from 0 up to its length, once, in order (20_memory.md R41). -/
def Memory.wf (m : Memory) : Bool := decide (m.map Prod.fst = List.range m.length)

/-- The live instance `h`. -/
def State.live? (s : State) (h : Nat) : Option Instance :=
  match s.slots[h]? with
  | some (.live i) => some i
  | _ => none

/-- Put a live instance at the place `h`. -/
def State.setLive (s : State) (h : Nat) (i : Instance) : State :=
  { s with slots := s.slots.set h (.live i) }

/-- The instance whose byte is being stepped, with its FEED in progress. -/
def State.openCall? (s : State) : Option (Instance × FeedCall) :=
  match s.live? s.current with
  | some i => i.call.map fun c => (i, c)
  | none => none

/-- Apply a transition to the registers of the instance whose byte is being stepped, where its
condition holds; the timestamp is that of the FEED in progress (40_feed_command.md R106). -/
def State.onRow (s : State) (applies : Framer → Bool) (act : Timestamp → Framer → Framer) :
    Host.Outcome State Fault Refusal :=
  match s.openCall? with
  | none => .refused .noFeedInProgress
  | some (i, c) =>
    if applies i.framer then .next (s.setLive s.current { i with framer := act c.ts i.framer })
    else .refused .rowDoesNotApply

/-- Move past the byte just stepped (40_feed_command.md R103). The call stays in progress, after the
last byte too: its sink may be running (70_reset_and_hazards.md R206). -/
def FeedCall.advance (c : FeedCall) : FeedCall := { c with cursor := c.cursor + 1 }

/-- Every byte of the window was stepped. -/
def FeedCall.atEnd (c : FeedCall) : Bool := decide (c.stop ≤ c.cursor)

/-- Move the current instance's FEED past the byte just stepped. -/
def State.advance (s : State) : State :=
  match s.openCall? with
  | none => s
  | some (i, c) => s.setLive s.current { i with call := some c.advance }

/-- The FEED in progress on the current instance returns (40_feed_command.md R103). -/
def State.endFeed (s : State) : State :=
  match s.openCall? with
  | none => s
  | some (i, _) => s.setLive s.current { i with call := none }

/-- `State.advance` where the byte's instruction gave a next state. -/
def advanceOutcome (o : Host.Outcome State Fault Refusal) : Host.Outcome State Fault Refusal :=
  match o with
  | .next s => .next s.advance
  | .fault r => .fault r
  | .refused r => .refused r

end Sys2Proof.Machine
end

