-- ==== Sys2Proof/Machine/Transitions.lean ====
section
/-! DEFINITION. The transitions of the Framer on its registers (41_header_state.md, 42_sysex_state.md,
43_params_state.md), `STEP` (40_feed_command.md R104), and the loop over a window's bytes (R103). -/

namespace Sys2Proof.Machine

/-- HDR_SYSEX_START (41_header_state.md R121). -/
def Framer.hdrSysexStart (f : Framer) : Framer :=
  { f with sxbuf := [0xF0#8], st := .sysEx }

/-- HDR_STATUS (R122) with its outcomes by length: R123, R124, R125. -/
def Framer.hdrStatus (b : Byte) (ts : Timestamp) (f : Framer) : Framer :=
  let f := { f with rs := some b }
  let len := lenOf b
  if len = 0 then f
  else
    let f := { f with mbuf := [b], explen := len, st := .params }
    if len = 1 then { f.emit .mbuf ts with st := .header }
    else f

/-- HDR_DATA_RS (R126) with its outcomes by length: R127, R128, R129. -/
def Framer.hdrDataRs (b : Byte) (ts : Timestamp) (f : Framer) : Framer :=
  match f.rs with
  | none => f
  | some r =>
    let len := lenOf r
    if len ≤ 1 then f
    else
      let f := { f with mbuf := [r, b], explen := len, st := .params }
      if len = 2 then { f.emit .mbuf ts with st := .header }
      else f

/-- HDR_DATA_NORS: the byte is dropped (R130). -/
def Framer.hdrDataNors (f : Framer) : Framer := f

/-- SX_RESTART: close the open frame with a synthetic 0xF7, emit it, open a new one (42_sysex_state.md R141). -/
def Framer.sxRestart (ts : Timestamp) (f : Framer) : Framer :=
  { Framer.emit .sxbuf ts { f with sxbuf := f.sxbuf ++ [0xF7#8] } with sxbuf := [0xF0#8], st := .sysEx }

/-- SX_APPEND (R142). -/
def Framer.sxAppend (b : Byte) (f : Framer) : Framer :=
  { f with sxbuf := f.sxbuf ++ [b] }

/-- SX_EOX: append, emit the completed frame, return to Header (R143). -/
def Framer.sxEox (ts : Timestamp) (f : Framer) : Framer :=
  { Framer.emit .sxbuf ts (f.sxAppend 0xF7#8) with st := .header }

/-- PRM_APPEND (43_params_state.md R150): complete (R151) or incomplete (R152). -/
def Framer.prmAppend (b : Byte) (ts : Timestamp) (f : Framer) : Framer :=
  let f := { f with mbuf := f.mbuf ++ [b] }
  if f.mbuf.length = f.explen.val then { f.emit .mbuf ts with st := .header } else f

/-- HEADER_STEP: the order of tests in Header state (41_header_state.md R120). -/
def Framer.headerStep (b : Byte) (ts : Timestamp) (f : Framer) : Framer :=
  if b = 0xF0#8 then f.hdrSysexStart
  else if isStatus b then f.hdrStatus b ts
  else if f.rsValid then f.hdrDataRs b ts
  else f.hdrDataNors

/-- SYSEX_STEP: the order of tests in SysEx state (42_sysex_state.md R140). -/
def Framer.sysExStep (b : Byte) (ts : Timestamp) (f : Framer) : Framer :=
  if b = 0xF0#8 then f.sxRestart ts
  else if b = 0xF7#8 then f.sxEox ts
  else f.sxAppend b

/-- `STEP(b, ts)`: dispatch on the parser state and on nothing else (40_feed_command.md R104). -/
def Framer.step (b : Byte) (ts : Timestamp) (f : Framer) : Framer :=
  match f.st with
  | .header => f.headerStep b ts
  | .sysEx => f.sysExStep b ts
  | .params => f.prmAppend b ts

/-- The STEP row a byte is handled by: the first whose test it passes (30_encoding.md R97). -/
def Framer.rowFor (b : Byte) (f : Framer) : Instr :=
  match f.st with
  | .header =>
    if b = 0xF0#8 then .hdrSysexStart
    else if isStatus b then .hdrStatus b
    else if f.rsValid then .hdrDataRs b
    else .hdrDataNors b
  | .sysEx => if b = 0xF0#8 then .sxRestart else if b = 0xF7#8 then .sxEox else .sxAppend b
  | .params => .prmAppend b

/-- Step bytes in order under one timestamp (the loop of 40_feed_command.md R103). -/
def Framer.stepAll (bs : List Byte) (ts : Timestamp) (f : Framer) : Framer :=
  bs.foldl (fun g b => g.step b ts) f

/-- Present one byte to the instance whose FEED is in progress: `STEP(b, ts)`. -/
def State.presentByte (s : State) (b : Byte) : Host.Outcome State Fault Refusal :=
  s.onRow (fun _ => true) fun ts f => f.step b ts

end Sys2Proof.Machine
end

