-- ==== Sys2Proof/Machine/Bytes.lean ====
section
/-! DEFINITION. The meanings of the 24 BYTE rows: each byte is presented to the instance whose FEED is
in progress and is one STEP there (30_encoding.md R65 to R88; 40_feed_command.md R104). -/

namespace Sys2Proof.Machine

/-- `DATA` (30_encoding.md R65). -/
def execData (v : BitVec 7) (s : State) : Host.Outcome State Fault Refusal :=
  s.presentByte (0#1 ++ v)

/-- `ST_8n` (30_encoding.md R66). -/
def execSt8n (n : BitVec 4) (s : State) : Host.Outcome State Fault Refusal :=
  s.presentByte (0x8#4 ++ n)

/-- `ST_9n` (30_encoding.md R67). -/
def execSt9n (n : BitVec 4) (s : State) : Host.Outcome State Fault Refusal :=
  s.presentByte (0x9#4 ++ n)

/-- `ST_An` (30_encoding.md R68). -/
def execStAn (n : BitVec 4) (s : State) : Host.Outcome State Fault Refusal :=
  s.presentByte (0xA#4 ++ n)

/-- `ST_Bn` (30_encoding.md R69). -/
def execStBn (n : BitVec 4) (s : State) : Host.Outcome State Fault Refusal :=
  s.presentByte (0xB#4 ++ n)

/-- `ST_Cn` (30_encoding.md R70). -/
def execStCn (n : BitVec 4) (s : State) : Host.Outcome State Fault Refusal :=
  s.presentByte (0xC#4 ++ n)

/-- `ST_Dn` (30_encoding.md R71). -/
def execStDn (n : BitVec 4) (s : State) : Host.Outcome State Fault Refusal :=
  s.presentByte (0xD#4 ++ n)

/-- `ST_En` (30_encoding.md R72). -/
def execStEn (n : BitVec 4) (s : State) : Host.Outcome State Fault Refusal :=
  s.presentByte (0xE#4 ++ n)

/-- `SYSEX_START` (30_encoding.md R73). -/
def execSysexStart (s : State) : Host.Outcome State Fault Refusal :=
  s.presentByte 0xF0#8

/-- `SC_F1` (30_encoding.md R74). -/
def execScF1 (s : State) : Host.Outcome State Fault Refusal :=
  s.presentByte 0xF1#8

/-- `SC_F2` (30_encoding.md R75). -/
def execScF2 (s : State) : Host.Outcome State Fault Refusal :=
  s.presentByte 0xF2#8

/-- `SC_F3` (30_encoding.md R76). -/
def execScF3 (s : State) : Host.Outcome State Fault Refusal :=
  s.presentByte 0xF3#8

/-- `UNDEF_F4` (30_encoding.md R77). -/
def execUndefF4 (s : State) : Host.Outcome State Fault Refusal :=
  s.presentByte 0xF4#8

/-- `UNDEF_F5` (30_encoding.md R78). -/
def execUndefF5 (s : State) : Host.Outcome State Fault Refusal :=
  s.presentByte 0xF5#8

/-- `SC_F6` (30_encoding.md R79). -/
def execScF6 (s : State) : Host.Outcome State Fault Refusal :=
  s.presentByte 0xF6#8

/-- `EOX_F7` (30_encoding.md R80). -/
def execEoxF7 (s : State) : Host.Outcome State Fault Refusal :=
  s.presentByte 0xF7#8

/-- `RT_F8` (30_encoding.md R81). -/
def execRtF8 (s : State) : Host.Outcome State Fault Refusal :=
  s.presentByte 0xF8#8

/-- `UNDEF_F9` (30_encoding.md R82). -/
def execUndefF9 (s : State) : Host.Outcome State Fault Refusal :=
  s.presentByte 0xF9#8

/-- `RT_FA` (30_encoding.md R83). -/
def execRtFA (s : State) : Host.Outcome State Fault Refusal :=
  s.presentByte 0xFA#8

/-- `RT_FB` (30_encoding.md R84). -/
def execRtFB (s : State) : Host.Outcome State Fault Refusal :=
  s.presentByte 0xFB#8

/-- `RT_FC` (30_encoding.md R85). -/
def execRtFC (s : State) : Host.Outcome State Fault Refusal :=
  s.presentByte 0xFC#8

/-- `UNDEF_FD` (30_encoding.md R86). -/
def execUndefFD (s : State) : Host.Outcome State Fault Refusal :=
  s.presentByte 0xFD#8

/-- `RT_FE` (30_encoding.md R87). -/
def execRtFE (s : State) : Host.Outcome State Fault Refusal :=
  s.presentByte 0xFE#8

/-- `RT_FF` (30_encoding.md R88). -/
def execRtFF (s : State) : Host.Outcome State Fault Refusal :=
  s.presentByte 0xFF#8

end Sys2Proof.Machine
end

