-- ==== Sys2Proof/Machine/Commands.lean ====
section
/-! DEFINITION. The meanings of the 4 CMD rows: NEW, FEED, DISCARD (40_feed_command.md) and CHUNK
(44_packetizer.md). -/

namespace Sys2Proof.Machine

/-- `NEW(sink)`: an instance in the reset state, bound to `sink` for life (40_feed_command.md R113). -/
def execNew (sink : Nat) (s : State) : Host.Outcome State Fault Refusal :=
  .next { s with slots := s.slots ++ [.live (Instance.fresh sink)] }

/-- The FEED in progress a call opens: its window, or nothing when a precondition fails and the call
is a no-op (40_feed_command.md R101, R102). -/
def FeedCall.start? (data : List Byte) (offset count : Int) (ts : Timestamp) : Option FeedCall :=
  (windowOf offset count data.length).map fun w =>
    { data := Memory.ofBytes data, cursor := w.1, stop := w.2, ts := ts }

/-- `FEED`: opens the call; its window bytes are then stepped one per step of the machine
(40_feed_command.md R100 to R103; 70_reset_and_hazards.md R213; log 12). On an instance whose FEED is
in progress it has no meaning (20_memory.md R50), nor on one that is not live (U12). -/
def execFeed (h : Nat) (data : List Byte) (offset count : Int) (ts : Timestamp) (s : State) :
    Host.Outcome State Fault Refusal :=
  match s.live? h with
  | none => .refused .notLive
  | some i =>
    if i.call.isSome then .refused .overlappingFeed
    else .next (s.setLive h { i with call := FeedCall.start? data offset count ts })

/-- `DISCARD`: the instance ends, all of its state is lost, nothing is emitted
(40_feed_command.md R113; 70_reset_and_hazards.md R202). -/
def execDiscard (h : Nat) (s : State) : Host.Outcome State Fault Refusal :=
  match s.live? h with
  | none => .refused .notLive
  | some i =>
    if i.call.isSome then .refused .discardInsideFeed
    else .next { s with slots := s.slots.set h (.discarded i.sink i.framer.out) }

/-- The loop of CHUNK from index `i`, at most `fuel` rounds (44_packetizer.md R162). -/
def chunkLoop (size : Nat) (bytes : List Byte) (t : Timestamp) : Nat → Nat → List Packet
  | 0, _ => []
  | fuel + 1, i =>
    if i < bytes.length then
      let j := min (i + size) bytes.length
      { bytes := slice bytes i j, ts := t } :: chunkLoop size bytes t fuel j
    else []

/-- The chunks of `bytes` under a ceiling `size` >= 1: greedy from the front (44_packetizer.md R162).
One round per byte is enough. DESIGN CHOICE of the spec (D5), unsafe of a realisation that cuts
smaller (log 4). -/
def chunksOf (size : Nat) (bytes : List Byte) (t : Timestamp) : List Packet :=
  chunkLoop size bytes t bytes.length 0

/-- `CHUNK(bytes, ts?)`: the chunks carry the given timestamp, or one draw of NOW (44_packetizer.md
R162 to R164). It touches no Framer (R167). -/
def execChunk (bytes : List Byte) (ts : Option Timestamp) (s : State) : Host.Outcome State Fault Refusal :=
  match ts with
  | some t => .next { s with chunkCalls := s.chunkCalls ++ [chunksOf Config.chunkMax bytes t] }
  | none =>
    .next { s with
      chunkCalls := s.chunkCalls ++ [chunksOf Config.chunkMax bytes (Config.now s.nowDraws)]
      nowDraws := s.nowDraws + 1 }

end Sys2Proof.Machine
end

