-- ==== Sys2Proof/Machine/Rows.lean ====
section
/-! DEFINITION. The meanings of the 8 STEP rows: a row whose condition holds is its transition; a row
whose condition fails does not apply (30_encoding.md R97, R98; log 19). -/

namespace Sys2Proof.Machine

/-- `HDR_SYSEX_START` (41_header_state.md R121). -/
def execHdrSysexStart (s : State) : Host.Outcome State Fault Refusal :=
  s.onRow Framer.inHeader fun _ f => f.hdrSysexStart

/-- `HDR_STATUS` (41_header_state.md R122 to R125). -/
def execHdrStatus (b : Byte) (s : State) : Host.Outcome State Fault Refusal :=
  s.onRow (Framer.takesStatus b) fun ts f => f.hdrStatus b ts

/-- `HDR_DATA_RS` (41_header_state.md R126 to R129). -/
def execHdrDataRs (b : Byte) (s : State) : Host.Outcome State Fault Refusal :=
  s.onRow (Framer.takesDataRs b) fun ts f => f.hdrDataRs b ts

/-- `HDR_DATA_NORS` (41_header_state.md R130). -/
def execHdrDataNors (b : Byte) (s : State) : Host.Outcome State Fault Refusal :=
  s.onRow (Framer.takesDataNors b) fun _ f => f.hdrDataNors

/-- `SX_RESTART` (42_sysex_state.md R141). -/
def execSxRestart (s : State) : Host.Outcome State Fault Refusal :=
  s.onRow Framer.inSysEx fun ts f => f.sxRestart ts

/-- `SX_EOX` (42_sysex_state.md R143). -/
def execSxEox (s : State) : Host.Outcome State Fault Refusal :=
  s.onRow Framer.inSysEx fun ts f => f.sxEox ts

/-- `SX_APPEND` (42_sysex_state.md R142). -/
def execSxAppend (b : Byte) (s : State) : Host.Outcome State Fault Refusal :=
  s.onRow (Framer.takesAppend b) fun _ f => f.sxAppend b

/-- `PRM_APPEND` (43_params_state.md R150 to R152). -/
def execPrmAppend (b : Byte) (s : State) : Host.Outcome State Fault Refusal :=
  s.onRow Framer.inParams fun ts f => f.prmAppend b ts

end Sys2Proof.Machine
end

