-- ==== Sys2Proof/Machine/Dispatch.lean ====
section
/-! DEFINITION. The dispatcher: one arm per row of spec/opcode_table.json. -/

namespace Sys2Proof.Machine

def exec (i : Instr) (s : State) : Host.Outcome State Fault Refusal :=
  match i with
  | .data v => Sys2Proof.Machine.execData v s
  | .st8n n => Sys2Proof.Machine.execSt8n n s
  | .st9n n => Sys2Proof.Machine.execSt9n n s
  | .stAn n => Sys2Proof.Machine.execStAn n s
  | .stBn n => Sys2Proof.Machine.execStBn n s
  | .stCn n => Sys2Proof.Machine.execStCn n s
  | .stDn n => Sys2Proof.Machine.execStDn n s
  | .stEn n => Sys2Proof.Machine.execStEn n s
  | .sysexStart => Sys2Proof.Machine.execSysexStart s
  | .scF1 => Sys2Proof.Machine.execScF1 s
  | .scF2 => Sys2Proof.Machine.execScF2 s
  | .scF3 => Sys2Proof.Machine.execScF3 s
  | .undefF4 => Sys2Proof.Machine.execUndefF4 s
  | .undefF5 => Sys2Proof.Machine.execUndefF5 s
  | .scF6 => Sys2Proof.Machine.execScF6 s
  | .eoxF7 => Sys2Proof.Machine.execEoxF7 s
  | .rtF8 => Sys2Proof.Machine.execRtF8 s
  | .undefF9 => Sys2Proof.Machine.execUndefF9 s
  | .rtFA => Sys2Proof.Machine.execRtFA s
  | .rtFB => Sys2Proof.Machine.execRtFB s
  | .rtFC => Sys2Proof.Machine.execRtFC s
  | .undefFD => Sys2Proof.Machine.execUndefFD s
  | .rtFE => Sys2Proof.Machine.execRtFE s
  | .rtFF => Sys2Proof.Machine.execRtFF s
  | .hdrSysexStart => Sys2Proof.Machine.execHdrSysexStart s
  | .hdrStatus b => Sys2Proof.Machine.execHdrStatus b s
  | .hdrDataRs b => Sys2Proof.Machine.execHdrDataRs b s
  | .hdrDataNors b => Sys2Proof.Machine.execHdrDataNors b s
  | .sxRestart => Sys2Proof.Machine.execSxRestart s
  | .sxEox => Sys2Proof.Machine.execSxEox s
  | .sxAppend b => Sys2Proof.Machine.execSxAppend b s
  | .prmAppend b => Sys2Proof.Machine.execPrmAppend b s
  | .new sink => Sys2Proof.Machine.execNew sink s
  | .feed h data offset count ts => Sys2Proof.Machine.execFeed h data offset count ts s
  | .discard h => Sys2Proof.Machine.execDiscard h s
  | .chunk bytes ts => Sys2Proof.Machine.execChunk bytes ts s

end Sys2Proof.Machine
end

