-- ==== Sys2Proof/WellFormed.lean ====
section
/-! DEFINITION. Which instruction terms are well formed: a STEP row is paired only with a byte its
match, mask and priority give it (30_encoding.md R97). Every BYTE and CMD term is well formed. -/

namespace Sys2Proof

/-- A STEP row's byte lies in the row's byte class; nothing else can be ill formed. -/
def Instr.wellFormed : Instr → Bool
  | .hdrStatus b => decide (0x80#8 ≤ b ∧ b ≠ 0xF0#8)
  | .hdrDataRs b => decide (b < 0x80#8)
  | .hdrDataNors b => decide (b < 0x80#8)
  | .sxAppend b => decide (b ≠ 0xF0#8 ∧ b ≠ 0xF7#8)
  | .data _ | .st8n _ | .st9n _ | .stAn _ | .stBn _ | .stCn _ | .stDn _ | .stEn _ => true
  | .sysexStart | .scF1 | .scF2 | .scF3 | .undefF4 | .undefF5 | .scF6 | .eoxF7 => true
  | .rtF8 | .undefF9 | .rtFA | .rtFB | .rtFC | .undefFD | .rtFE | .rtFF => true
  | .hdrSysexStart | .sxRestart | .sxEox | .prmAppend _ => true
  | .new _ | .feed _ _ _ _ _ | .discard _ | .chunk _ _ => true

end Sys2Proof
end

