-- ==== Sys2Proof/Decode.lean ====
section
/-! DEFINITION. The decoder, written from the BYTE rows alone (30_encoding.md R98), and after it the
encoder, from the same rows and the STEP rows' match and mask. -/

namespace Sys2Proof

/-- Why the decoder gives no instruction. There is one reason: the stream has no byte. No byte value
is refused (R91). -/
inductive DecodeError
  /-- The byte list is empty. -/
  | emptyStream
  deriving DecidableEq, Repr

/-- The BYTE row of a byte with high nibble 0xF, by its low nibble (R73 to R88). -/
def decodeSystem (n : BitVec 4) : Instr :=
  match n with
  | 0x0#4 => .sysexStart
  | 0x1#4 => .scF1
  | 0x2#4 => .scF2
  | 0x3#4 => .scF3
  | 0x4#4 => .undefF4
  | 0x5#4 => .undefF5
  | 0x6#4 => .scF6
  | 0x7#4 => .eoxF7
  | 0x8#4 => .rtF8
  | 0x9#4 => .undefF9
  | 0xA#4 => .rtFA
  | 0xB#4 => .rtFB
  | 0xC#4 => .rtFC
  | 0xD#4 => .undefFD
  | 0xE#4 => .rtFE
  | _ => .rtFF

/-- The BYTE row of a status byte, by its high nibble (R66 to R88). -/
def decodeStatus (hi lo : BitVec 4) : Instr :=
  match hi with
  | 0x8#4 => .st8n lo
  | 0x9#4 => .st9n lo
  | 0xA#4 => .stAn lo
  | 0xB#4 => .stBn lo
  | 0xC#4 => .stCn lo
  | 0xD#4 => .stDn lo
  | 0xE#4 => .stEn lo
  | _ => decodeSystem lo

/-- The BYTE row of a byte: bit 7 clear is `DATA` (R60, R65), otherwise the high nibble decides. -/
def decodeByte (b : Byte) : Instr :=
  if b.getLsbD 7 then decodeStatus (b.extractLsb' 4 4) (b.extractLsb' 0 4)
  else .data (b.extractLsb' 0 7)

/-- Decode the first instruction of a byte list; an instruction is one byte (R6). -/
def decode : List Byte → Except DecodeError (Instr × List Byte)
  | [] => .error .emptyStream
  | b :: rest => .ok (decodeByte b, rest)

/-- The byte a BYTE row stands for, its field put back in place (R65 to R88); `none` for the other rows. -/
def Instr.byte? : Instr → Option Byte
  | .data v => some (0#1 ++ v)
  | .st8n n => some (0x8#4 ++ n)
  | .st9n n => some (0x9#4 ++ n)
  | .stAn n => some (0xA#4 ++ n)
  | .stBn n => some (0xB#4 ++ n)
  | .stCn n => some (0xC#4 ++ n)
  | .stDn n => some (0xD#4 ++ n)
  | .stEn n => some (0xE#4 ++ n)
  | .sysexStart => some 0xF0#8
  | .scF1 => some 0xF1#8
  | .scF2 => some 0xF2#8
  | .scF3 => some 0xF3#8
  | .undefF4 => some 0xF4#8
  | .undefF5 => some 0xF5#8
  | .scF6 => some 0xF6#8
  | .eoxF7 => some 0xF7#8
  | .rtF8 => some 0xF8#8
  | .undefF9 => some 0xF9#8
  | .rtFA => some 0xFA#8
  | .rtFB => some 0xFB#8
  | .rtFC => some 0xFC#8
  | .undefFD => some 0xFD#8
  | .rtFE => some 0xFE#8
  | .rtFF => some 0xFF#8
  | .hdrSysexStart | .hdrStatus _ | .hdrDataRs _ | .hdrDataNors _ => none
  | .sxRestart | .sxEox | .sxAppend _ | .prmAppend _ => none
  | .new _ | .feed _ _ _ _ _ | .discard _ | .chunk _ _ => none

/-- The byte a STEP row takes (its match and mask in spec/opcode_table.json); `none` for the other rows. -/
def Instr.rowByte? : Instr → Option Byte
  | .hdrSysexStart | .sxRestart => some 0xF0#8
  | .sxEox => some 0xF7#8
  | .hdrStatus b | .hdrDataRs b | .hdrDataNors b | .sxAppend b | .prmAppend b => some b
  | .data _ | .st8n _ | .st9n _ | .stAn _ | .stBn _ | .stCn _ | .stDn _ | .stEn _ => none
  | .sysexStart | .scF1 | .scF2 | .scF3 | .undefF4 | .undefF5 | .scF6 | .eoxF7 => none
  | .rtF8 | .undefF9 | .rtFA | .rtFB | .rtFC | .undefFD | .rtFE | .rtFF => none
  | .new _ | .feed _ _ _ _ _ | .discard _ | .chunk _ _ => none

/-- The bytes of an instruction: one for a BYTE or a STEP row; a CMD row has no bit-level encoding
(R98). The byte of a STEP row decodes to its BYTE row. -/
def encode (i : Instr) : Option (List Byte) :=
  match i.byte? with
  | some b => some [b]
  | none => i.rowByte?.map ([·])

/-- The `nbits` low bits of `w` laid out as bytes, the first at index 0; at least one byte, since the
longest instruction has one. The bits above `nbits` are 0. -/
def layoutWord (nbits w : Nat) : List Byte :=
  (List.range (max 1 ((nbits + 7) / 8))).map fun k =>
    BitVec.ofNat 8 (w % 2 ^ nbits / 256 ^ k)

/-- The instruction the decoder reads from the bits `w`, numbered as spec/opcode_table.json numbers
them; `none` where it refuses. -/
def decodeTableWord (nbits w : Nat) : Option Instr :=
  match decode (layoutWord nbits w) with
  | .ok (i, _) => some i
  | .error _ => none

end Sys2Proof
end

