-- ==== Sys2Proof/Machine/Fetch.lean ====
section
/-! DEFINITION. What the machine does next: the environment's next call, or the next window byte of a
FEED in progress, fetched from its buffer and decoded, or the return of a FEED, or nothing
(10_state.md R34; 40_feed_command.md R103; log 13). -/

namespace Sys2Proof.Machine

/-- What a step does. -/
inductive NextAction
  /-- Nothing: no call is made and no FEED has a byte to step. -/
  | idle (s : State)
  /-- The environment makes a call. -/
  | call (i : Instr) (s : State)
  /-- A window byte, decoded. -/
  | fetched (i : Instr) (s : State)
  /-- A FEED whose window is done returns. -/
  | finish (s : State)
  /-- The cursor stands outside the buffer. -/
  | badFetch
  deriving DecidableEq, Repr

/-- The bytes from the cursor on, as far as the decoder needs them: one (00_scope.md R6). -/
def FeedCall.fetchBytes (c : FeedCall) : List Byte := (c.data.read c.cursor).toList

/-- The turn of instance `h`, if a FEED is in progress on it: its next window byte, or its return when
the window is done. Between the two the sink of the last byte runs (70_reset_and_hazards.md R206). -/
def State.takeTurn (s : State) (h : Nat) : NextAction :=
  let s := { s with current := h }
  match s.openCall? with
  | none => .idle s
  | some (_, c) =>
    if c.atEnd then .finish s.endFeed
    else
      match decode c.fetchBytes with
      | .ok (i, _) => .fetched i s
      | .error _ => .badFetch

/-- A FEED is in progress on the instance at this place. -/
def Slot.isFeeding : Slot → Bool
  | .live i => i.call.isSome
  | .discarded _ _ => false

/-- The first instance in order of creation with a FEED in progress. -/
def State.firstFeeding (s : State) : Option Nat := s.slots.findIdx? Slot.isFeeding

/-- What the step does: the environment's next event; when it has none, the turn of the first instance
with a FEED in progress (every FEED runs to its end, 70_reset_and_hazards.md R213); else nothing. -/
def State.nextAction (s : State) : NextAction :=
  match s.host with
  | e :: rest =>
    match e with
    | .turn h => State.takeTurn { s with host := rest } h
    | .new sink => .call (.new sink) { s with host := rest }
    | .feed h data offset count ts => .call (.feed h data offset count ts) { s with host := rest }
    | .discard h => .call (.discard h) { s with host := rest }
    | .chunk bytes ts => .call (.chunk bytes ts) { s with host := rest }
  | [] =>
    match s.firstFeeding with
    | some h => s.takeTurn h
    | none => .idle s

/-- A FEED in progress over exactly these bytes. -/
def FeedCall.over (bs : List Byte) (ts : Timestamp) : FeedCall :=
  { data := Memory.ofBytes bs, cursor := 0, stop := bs.length, ts := ts }

/-- Place bytes where the next step fetches: a FEED over them in progress on the current instance (a
fresh one where it is not live), and its turn next. A FEED already in progress there gives way, its
timestamp kept. DESIGN CHOICE, safe: some timestamp where there was none (log 25). -/
def State.placeBytes (s : State) (bs : List Byte) : State :=
  match s.live? s.current with
  | some i =>
    let ts := match i.call with
      | some c => c.ts
      | none => Config.someTimestamp
    { s.setLive s.current { i with call := some (FeedCall.over bs ts) } with
      host := .turn s.current :: s.host }
  | none =>
    { s with
      slots := s.slots ++ [.live { Instance.fresh 0 with call := some (FeedCall.over bs Config.someTimestamp) }]
      host := .turn s.slots.length :: s.host }

end Sys2Proof.Machine
end

