-- ==== Sys2Proof/Machine/Step.lean ====
section
/-! DEFINITION. One step of the machine, and the placing of a word where it fetches. -/

namespace Sys2Proof.Machine

/-- One step: the environment's call, or one STEP on a window byte and the move past it,
or the return of a FEED, or nothing. -/
def step (s : State) : Host.Outcome State Fault Refusal :=
  match s.nextAction with
  | .idle s' => .next s'
  | .call i s' => exec i s'
  | .fetched i s' => advanceOutcome (exec i s')
  | .finish s' => .next s'
  | .badFetch => .fault .readOutsideBuffer

/-- `s` with the bits `w` placed where the next step fetches its instruction (log 13, log 25). -/
def State.withFetchWord (s : State) (nbits w : Nat) : State :=
  s.placeBytes (layoutWord nbits w)

end Sys2Proof.Machine
end

