-- ==== Sys2Proof/Safety.lean ====
section
/-! DEFINITION. The terms in which claims are stated: the message formats, the invariants of
10_state.md section 3, runs made of whole FEED calls, the retiming of a state, the pieces of a stream. -/

namespace Sys2Proof.Machine

/-- A complete message of one of the four formats M1, M2, M3, SX (30_encoding.md R62). -/
inductive IsMessage : List Byte → Prop
  /-- Format M1. -/
  | m1 (s : Byte) (len : lenOf s = 1) : IsMessage [s]
  /-- Format M2. -/
  | m2 (s p : Byte) (len : lenOf s = 2) : IsMessage [s, p]
  /-- Format M3. -/
  | m3 (s p q : Byte) (len : lenOf s = 3) : IsMessage [s, p, q]
  /-- Format SX: no byte inside the frame is 0xF0 or 0xF7. -/
  | sx (xs : List Byte) (noStart : 0xF0#8 ∉ xs) (noEnd : 0xF7#8 ∉ xs) :
    IsMessage (0xF0#8 :: (xs ++ [0xF7#8]))

/-- The invariants of the registers of one instance (10_state.md R30 to R33), with the format of
everything emitted (30_encoding.md R62). -/
structure Framer.Inv (f : Framer) : Prop where
  /-- In Header both buffers are empty (R30). -/
  header : f.st = .header → f.mbuf = [] ∧ f.sxbuf = []
  /-- In Params a message is under way, governed by the running status (R31). -/
  params : f.st = .params → ∃ r tail, f.rs = some r ∧ f.mbuf = r :: tail ∧ f.explen = lenOf r ∧
    2 ≤ f.explen.val ∧ f.mbuf.length < f.explen.val ∧ f.sxbuf = []
  /-- In SysEx a frame is open (R32). -/
  sysEx : f.st = .sysEx → ∃ tail, f.sxbuf = 0xF0#8 :: tail ∧ 0xF0#8 ∉ tail ∧ 0xF7#8 ∉ tail ∧
    f.mbuf = []
  /-- The running status is a status byte other than 0xF0 (R33). -/
  running : ∀ r, f.rs = some r → 0x80#8 ≤ r ∧ r ≠ 0xF0#8
  /-- Every emitted message is whole (R62; 40_feed_command.md R105). -/
  emitted : ∀ e ∈ f.out, IsMessage e.msg

/-- The FEED in progress: its buffer is in canonical form and its cursor stands inside a window that
lies inside the buffer, or at the window's end (20_memory.md R41; 40_feed_command.md R102). -/
def FeedCall.Inv (c : FeedCall) : Prop :=
  c.data.wf = true ∧ c.cursor ≤ c.stop ∧ c.stop ≤ c.data.length

/-- The invariant of one place in the order of creation. -/
def Slot.Inv : Slot → Prop
  | .live i => i.framer.Inv ∧ ∀ c, i.call = some c → c.Inv
  | .discarded _ out => ∀ e ∈ out, IsMessage e.msg

/-- The invariant of the machine. -/
def State.Inv (s : State) : Prop := ∀ slot ∈ s.slots, slot.Inv

/-- What a place's sink was given so far, the instance live or not (10_state.md R27). -/
def Slot.emitted : Slot → List Emission
  | .live i => i.framer.out
  | .discarded _ out => out

/-- The observation of instance `h`; nothing where none was created. -/
def State.emitted (s : State) (h : Nat) : List Emission :=
  match s.slots[h]? with
  | some slot => slot.emitted
  | none => []

/-- The byte at index `a` of the FEED buffer of instance `h`, if a FEED is in progress there. -/
def State.bufferByte (s : State) (h a : Nat) : Option Byte :=
  match s.live? h with
  | some i => i.call.bind fun c => c.data.read a
  | none => none

/-- How many turns a place's FEED still needs: one for each window byte left, and one to return. -/
def Slot.remaining : Slot → Nat
  | .live i => (i.call.map fun c => c.stop - c.cursor + 1).getD 0
  | .discarded _ _ => 0

/-- How many turns all FEEDs in progress still need. -/
def State.remaining (s : State) : Nat := (s.slots.map Slot.remaining).sum

/-- `n` steps of the machine, stopping at the first fault or refusal. -/
def runSteps : Nat → State → Host.Outcome State Fault Refusal
  | 0, s => .next s
  | n + 1, s =>
    match step s with
    | .next s' => runSteps n s'
    | .fault r => .fault r
    | .refused r => .refused r

/-- The environment feeds whole buffers to instance `h`, one call after the other, each with a
timestamp of its own (40_feed_command.md R110), and lets each run to its return: one turn a byte, and
one to return. -/
def feedScript (h : Nat) : List (List Byte × Timestamp) → List HostEvent
  | [] => []
  | (bytes, ts) :: rest =>
    .feed h bytes 0 bytes.length ts :: (List.replicate (bytes.length + 1) (.turn h) ++ feedScript h rest)

/-- Replace every timestamp `t` in an emission by `g t`. -/
def Emission.retime (g : Timestamp → Timestamp) (e : Emission) : Emission := { e with ts := g e.ts }

/-- Replace every timestamp in an instance's registers and observation. -/
def Framer.retime (g : Timestamp → Timestamp) (f : Framer) : Framer :=
  { f with out := f.out.map (Emission.retime g) }

/-- Replace the timestamp of a FEED in progress. -/
def FeedCall.retime (g : Timestamp → Timestamp) (c : FeedCall) : FeedCall := { c with ts := g c.ts }

/-- Replace every timestamp of an instance. -/
def Instance.retime (g : Timestamp → Timestamp) (i : Instance) : Instance :=
  { i with framer := i.framer.retime g, call := i.call.map (FeedCall.retime g) }

/-- Replace every timestamp at one place. -/
def Slot.retime (g : Timestamp → Timestamp) : Slot → Slot
  | .live i => .live (i.retime g)
  | .discarded sink out => .discarded sink (out.map (Emission.retime g))

/-- Replace the timestamp of a chunk. -/
def Packet.retime (g : Timestamp → Timestamp) (p : Packet) : Packet := { p with ts := g p.ts }

/-- Replace the timestamp an environment event carries. -/
def HostEvent.retime (g : Timestamp → Timestamp) : HostEvent → HostEvent
  | .feed h data offset count ts => .feed h data offset count (g ts)
  | .chunk bytes ts => .chunk bytes (ts.map g)
  | .new sink => .new sink
  | .discard h => .discard h
  | .turn h => .turn h

/-- Replace every timestamp of the machine. -/
def State.retime (g : Timestamp → Timestamp) (s : State) : State :=
  { s with
    slots := s.slots.map (Slot.retime g)
    chunkCalls := s.chunkCalls.map fun ps => ps.map (Packet.retime g)
    host := s.host.map (HostEvent.retime g) }

/-- Replace every timestamp of the state an outcome gives. -/
def retimeOutcome (g : Timestamp → Timestamp) (o : Host.Outcome State Fault Refusal) :
    Host.Outcome State Fault Refusal :=
  match o with
  | .next s => .next (s.retime g)
  | .fault r => .fault r
  | .refused r => .refused r

/-- A piece of the input stream as a run treats it (70_reset_and_hazards.md R215): a dropped byte, or
a message. `carried`: its status byte was carried over, not fed. `synthetic`: its 0xF7 was not fed. -/
inductive Piece
  /-- A byte that was dropped. -/
  | dropped (b : Byte)
  /-- A message that was emitted. -/
  | message (msg : List Byte) (carried synthetic : Bool)
  deriving DecidableEq, Repr

/-- The bytes of the stream a piece is made of. -/
def Piece.consumed : Piece → List Byte
  | .dropped b => [b]
  | .message msg carried synthetic =>
    let fed := if carried then msg.tail else msg
    if synthetic then fed.dropLast else fed

/-- The message a piece was emitted as. -/
def Piece.msg? : Piece → Option (List Byte)
  | .dropped _ => none
  | .message msg _ _ => some msg

/-- What the running status is after a piece: a status byte met in Header sets it, and that is one that
was dropped or one that starts a message, 0xF0 apart (10_state.md R22). -/
def Piece.running (rs : Option Byte) : Piece → Option Byte
  | .dropped b => if 0x80#8 ≤ b then some b else rs
  | .message msg carried _ =>
    if carried = true ∨ msg.head? = some 0xF0#8 then rs else msg.head?

/-- What a piece may be when the running status is `rs` and the stream goes on with `rest`. Dropped: a
data byte that the running status has no room for (X5, X6), or a status byte of length 0 other than
0xF0 (X4). A message with a carried status byte: that byte is the running status, and a data byte
follows it (30_encoding.md R63). A synthetic end: a frame that the next 0xF0 closes (X7). -/
def Piece.ok (rs : Option Byte) (rest : List Byte) : Piece → Prop
  | .dropped b =>
    (b < 0x80#8 ∧ ∀ r, rs = some r → (lenOf r).val ≤ 1) ∨ (0x80#8 ≤ b ∧ b ≠ 0xF0#8 ∧ lenOf b = 0)
  | .message msg carried synthetic =>
    IsMessage msg ∧
    (carried = true → synthetic = false ∧ ∃ r d tail, msg = r :: d :: tail ∧ rs = some r ∧ d < 0x80#8) ∧
    (synthetic = true → msg.head? = some 0xF0#8 ∧ rest.head? = some 0xF0#8)

/-- Every piece in turn is what it may be, starting from the running status `rs`; after the pieces the
stream goes on with `rest`. -/
def piecesOk (rest : List Byte) : Option Byte → List Piece → Prop
  | _, [] => True
  | rs, p :: ps => p.ok rs (ps.flatMap Piece.consumed ++ rest) ∧ piecesOk rest (p.running rs) ps

/-- The bytes of the stream still pending in the buffers; `carried`: the status byte of the message
under way was carried over, not fed. -/
def Framer.pending (f : Framer) (carried : Bool) : List Byte :=
  match f.st with
  | .header => []
  | .params => if carried then f.mbuf.tail else f.mbuf
  | .sysEx => f.sxbuf

/-- The registers and the observation account for `stream`, all the bytes stepped since the instance
was created (70_reset_and_hazards.md R215): it is, in order, the pieces and what is pending; the
messages of the pieces are what was emitted; every piece is what the rules allow; and the running
status is the last status byte met in Header: the first byte of the message under way, where that byte
was fed and not carried over, else the one that the pieces give. A carried-over one is the running
status, and a data byte follows it. -/
def Framer.Accounts (f : Framer) (stream : List Byte) : Prop :=
  ∃ (pieces : List Piece) (carried : Bool),
    pieces.flatMap Piece.consumed ++ f.pending carried = stream ∧
    pieces.filterMap Piece.msg? = f.out.map Emission.msg ∧
    piecesOk (f.pending carried) none pieces ∧
    (f.rs = if f.st = .params ∧ carried = false then f.mbuf.head? else pieces.foldl Piece.running none) ∧
    (carried = true → f.st = .params ∧ ∃ r d, f.mbuf = [r, d] ∧ f.rs = some r ∧ d < 0x80#8)

/-- The byte the next step presents to instance `h`, if it presents one. -/
def State.presented (s : State) (h : Nat) : List Byte :=
  match s.nextAction with
  | .fetched i s' => if s'.current = h then i.byte?.toList else []
  | _ => []

end Sys2Proof.Machine
end

