-- ==== Sys2Proof/Certificates/Slice0/Obligations.lean ====
section
/-! DEFINITION. The statements for the provers, each from the numbered rules of spec/. In all of them
`s.openCall? = some (i, c)` says that the instance being stepped is `i` and that the FEED in progress
on it, which presents the byte, is `c`. -/

open Sys2Proof Sys2Proof.Machine

/-! ## Encoding -/

/-- Words written out from the encoding strings of the BYTE rows decode to their rows (30_encoding.md
R65 to R88): a sanity statement. -/
def Obligations.WrittenBytesDecode : Prop :=
  decodeByte 0b00111100#8 = .data 0x3C#7 ∧ decodeByte 0b10000101#8 = .st8n 5#4 ∧
  decodeByte 0b10011111#8 = .st9n 15#4 ∧ decodeByte 0b11000101#8 = .stCn 5#4 ∧
  decodeByte 0b11100000#8 = .stEn 0#4 ∧ decodeByte 0b11110000#8 = .sysexStart ∧
  decodeByte 0b11110010#8 = .scF2 ∧ decodeByte 0b11110111#8 = .eoxF7 ∧
  decodeByte 0b11111000#8 = .rtF8 ∧ decodeByte 0b11111101#8 = .undefFD

/-- The 24 BYTE rows of spec/opcode_table.json: match, mask, and the instruction of a byte that matches. -/
def byteRows : List (Byte × Byte × (Byte → Instr)) :=
  [ (0x00#8, 0x80#8, fun b => .data (b.setWidth 7)),
    (0x80#8, 0xF0#8, fun b => .st8n (b.setWidth 4)), (0x90#8, 0xF0#8, fun b => .st9n (b.setWidth 4)),
    (0xA0#8, 0xF0#8, fun b => .stAn (b.setWidth 4)), (0xB0#8, 0xF0#8, fun b => .stBn (b.setWidth 4)),
    (0xC0#8, 0xF0#8, fun b => .stCn (b.setWidth 4)), (0xD0#8, 0xF0#8, fun b => .stDn (b.setWidth 4)),
    (0xE0#8, 0xF0#8, fun b => .stEn (b.setWidth 4)),
    (0xF0#8, 0xFF#8, fun _ => .sysexStart), (0xF1#8, 0xFF#8, fun _ => .scF1),
    (0xF2#8, 0xFF#8, fun _ => .scF2), (0xF3#8, 0xFF#8, fun _ => .scF3),
    (0xF4#8, 0xFF#8, fun _ => .undefF4), (0xF5#8, 0xFF#8, fun _ => .undefF5),
    (0xF6#8, 0xFF#8, fun _ => .scF6), (0xF7#8, 0xFF#8, fun _ => .eoxF7),
    (0xF8#8, 0xFF#8, fun _ => .rtF8), (0xF9#8, 0xFF#8, fun _ => .undefF9),
    (0xFA#8, 0xFF#8, fun _ => .rtFA), (0xFB#8, 0xFF#8, fun _ => .rtFB),
    (0xFC#8, 0xFF#8, fun _ => .rtFC), (0xFD#8, 0xFF#8, fun _ => .undefFD),
    (0xFE#8, 0xFF#8, fun _ => .rtFE), (0xFF#8, 0xFF#8, fun _ => .rtFF) ]

/-- Every byte matches exactly one of the 24 BYTE rows, and that row is what the decoder gives
(30_encoding.md R64, R98). -/
def Obligations.EveryByteMatchesOneRow : Prop :=
  ∀ b : Byte, (byteRows.filter fun r => b &&& r.2.1 = r.1).map (fun r => r.2.2 b) = [decodeByte b]

/-- The length function by ranges of byte values (30_encoding.md R64, the summary table). -/
def Obligations.LengthOfEveryByte : Prop :=
  ∀ b : Byte, (lenOf b).val =
    if b.toNat < 0x80 then 0
    else if b.toNat < 0xC0 then 3
    else if b.toNat < 0xE0 then 2
    else if b.toNat < 0xF0 then 3
    else if b.toNat = 0xF2 then 3
    else if b.toNat = 0xF1 ∨ b.toNat = 0xF3 then 2
    else if b.toNat = 0xF6 ∨ b.toNat = 0xF8 ∨ b.toNat = 0xFA ∨ b.toNat = 0xFB ∨ b.toNat = 0xFC ∨
      b.toNat = 0xFE ∨ b.toNat = 0xFF then 1
    else 0

/-- Decode and encode agree on every BYTE row with its field at every value, whatever follows it; and
every byte is the byte of the row it decodes to (30_encoding.md R65 to R88). -/
def Obligations.DecodeEncodeAgree : Prop :=
  (∀ (k : Instr) (b : Byte) (rest : List Byte), k.byte? = some b →
    encode k = some [b] ∧ decode (b :: rest) = .ok (k, rest)) ∧
  (∀ b : Byte, (decodeByte b).byte? = some b)

/-! ## The step -/

/-- A step runs the decoded instruction: when it is the turn of instance `h` (by the environment's
event, or by default when the environment does nothing and `h` is the first with a FEED in progress)
and the byte at the cursor, inside the window, is `b`, the step is the instruction `b` decodes to, then
the move past it (40_feed_command.md R103, R104; the turns are the model's own, log 13). -/
def Obligations.StepRunsTheDecodedByte : Prop :=
  ∀ (s : State) (h : Nat) (i : Instance) (c : FeedCall) (b : Byte),
    s.live? h = some i → i.call = some c → c.cursor < c.stop → c.data.read c.cursor = some b →
    (∀ rest, s.host = .turn h :: rest →
      step s = advanceOutcome (exec (decodeByte b) { s with host := rest, current := h })) ∧
    (s.host = [] → (∀ k < h, ∀ j, s.live? k = some j → j.call = none) →
      step s = advanceOutcome (exec (decodeByte b) { s with current := h }))

/-- The move past a stepped byte: the cursor of the current instance's FEED goes up by one, and nothing
else changes; the FEED is still in progress (40_feed_command.md R103; 70_reset_and_hazards.md R206; that
the move is the step's and not the instruction's is the model's choice, log 12). -/
def Obligations.AdvanceMovesTheCursor : Prop :=
  ∀ (s : State) (i : Instance) (c : FeedCall), s.openCall? = some (i, c) →
    s.advance = s.setLive s.current { i with call := some { c with cursor := c.cursor + 1 } }

/-- A call of the environment is one step: the call's instruction, on the state without the event
(70_reset_and_hazards.md R216; the list of events is the model's own, log 13). -/
def Obligations.StepMakesTheHostsCall : Prop :=
  ∀ (s : State) (rest : List HostEvent),
    (∀ sink, s.host = .new sink :: rest → step s = exec (.new sink) { s with host := rest }) ∧
    (∀ h data off cnt ts, s.host = .feed h data off cnt ts :: rest →
      step s = exec (.feed h data off cnt ts) { s with host := rest }) ∧
    (∀ h, s.host = .discard h :: rest → step s = exec (.discard h) { s with host := rest }) ∧
    (∀ bytes ts, s.host = .chunk bytes ts :: rest →
      step s = exec (.chunk bytes ts) { s with host := rest })

/-- Between calls nothing changes: with no event and no FEED in progress the machine holds its state;
a turn given to an instance without a FEED uses up the event and only names the instance
(10_state.md R34; events and turns are the model's own, log 13). -/
def Obligations.IdleHoldsTheState : Prop :=
  (∀ s : State, s.host = [] → (∀ h i, s.live? h = some i → i.call = none) → step s = .next s) ∧
  (∀ (s : State) (h : Nat) (rest : List HostEvent), s.host = .turn h :: rest →
    (∀ i, s.live? h = some i → i.call = none) →
    step s = .next { s with host := rest, current := h })

/-! ## Header state -/

/-- R121: 0xF0 in Header opens a frame; the running status is untouched. -/
def Obligations.SysexStartOpensFrame : Prop :=
  ∀ (s : State) (i : Instance) (c : FeedCall), s.openCall? = some (i, c) → i.framer.st = .header →
    ∀ k ∈ [Instr.sysexStart, Instr.hdrSysexStart],
      exec k s = .next (s.setLive s.current { i with framer :=
        { i.framer with sxbuf := [0xF0#8], st := .sysEx } })

/-- R123: a status byte of length 0 in Header is dropped; its only trace is the running status (that it
becomes the running status is R122, which follows HMC's table: 90_conflicts.md C1, log 24). -/
def Obligations.UnrecognisedStatusDropped : Prop :=
  ∀ (s : State) (i : Instance) (c : FeedCall), s.openCall? = some (i, c) → i.framer.st = .header →
    ∀ p ∈ [(Instr.undefF4, 0xF4#8), (.undefF5, 0xF5#8), (.eoxF7, 0xF7#8), (.undefF9, 0xF9#8),
        (.undefFD, 0xFD#8)],
      ∀ k ∈ [p.1, Instr.hdrStatus p.2],
        exec k s = .next (s.setLive s.current { i with framer := { i.framer with rs := some p.2 } })

/-- R124: a status byte of length 1 in Header is emitted at once under the call's timestamp, and becomes
the running status (R122; 90_conflicts.md C1, log 24). -/
def Obligations.OneByteMessageEmitted : Prop :=
  ∀ (s : State) (i : Instance) (c : FeedCall), s.openCall? = some (i, c) → i.framer.st = .header →
    ∀ p ∈ [(Instr.scF6, 0xF6#8), (.rtF8, 0xF8#8), (.rtFA, 0xFA#8), (.rtFB, 0xFB#8), (.rtFC, 0xFC#8),
        (.rtFE, 0xFE#8), (.rtFF, 0xFF#8)],
      ∀ k ∈ [p.1, Instr.hdrStatus p.2],
        exec k s = .next (s.setLive s.current { i with framer :=
          { i.framer with
            rs := some p.2, mbuf := [], explen := 1,
            out := i.framer.out ++ [{ msg := [p.2], ts := c.ts }] } })

/-- R122, R125: a channel status, 0xF1, 0xF2 or 0xF3 in Header starts a message and sets the running
status (R122; for 0xF1 to 0xF3 that is the spec's own decision D14, after 90_conflicts.md C1, log 24). -/
def Obligations.StatusStartsMessage : Prop :=
  ∀ (s : State) (i : Instance) (c : FeedCall), s.openCall? = some (i, c) → i.framer.st = .header →
    ∀ (n : BitVec 4), ∀ p ∈ [(Instr.st8n n, 0x8#4 ++ n, (3 : Fin 4)), (.st9n n, 0x9#4 ++ n, 3),
        (.stAn n, 0xA#4 ++ n, 3), (.stBn n, 0xB#4 ++ n, 3), (.stCn n, 0xC#4 ++ n, 2),
        (.stDn n, 0xD#4 ++ n, 2), (.stEn n, 0xE#4 ++ n, 3), (.scF1, 0xF1#8, 2), (.scF2, 0xF2#8, 3),
        (.scF3, 0xF3#8, 2)],
      ∀ k ∈ [p.1, Instr.hdrStatus p.2.1],
        exec k s = .next (s.setLive s.current { i with framer :=
          { i.framer with rs := some p.2.1, mbuf := [p.2.1], explen := p.2.2, st := .params } })

/-- R127: a data byte in Header under a running status without room for one is dropped. -/
def Obligations.DataWithoutRoomDropped : Prop :=
  ∀ (s : State) (i : Instance) (c : FeedCall) (v : BitVec 7) (r : Byte), s.openCall? = some (i, c) →
    i.framer.st = .header → i.framer.rs = some r → (lenOf r).val ≤ 1 →
    ∀ k ∈ [Instr.data v, Instr.hdrDataRs (0#1 ++ v)], exec k s = .next s

/-- R128: a data byte in Header under a running status of length 2 is a whole message, emitted at once. -/
def Obligations.RunningStatusTwoByteMessage : Prop :=
  ∀ (s : State) (i : Instance) (c : FeedCall) (v : BitVec 7) (r : Byte), s.openCall? = some (i, c) →
    i.framer.st = .header → i.framer.rs = some r → lenOf r = 2 →
    ∀ k ∈ [Instr.data v, Instr.hdrDataRs (0#1 ++ v)],
      exec k s = .next (s.setLive s.current { i with framer :=
        { i.framer with
          mbuf := [], explen := 2,
          out := i.framer.out ++ [{ msg := [r, 0#1 ++ v], ts := c.ts }] } })

/-- R129: a data byte in Header under a running status of length 3 starts a message of two bytes so far. -/
def Obligations.RunningStatusStartsThreeByteMessage : Prop :=
  ∀ (s : State) (i : Instance) (c : FeedCall) (v : BitVec 7) (r : Byte), s.openCall? = some (i, c) →
    i.framer.st = .header → i.framer.rs = some r → lenOf r = 3 →
    ∀ k ∈ [Instr.data v, Instr.hdrDataRs (0#1 ++ v)],
      exec k s = .next (s.setLive s.current { i with framer :=
        { i.framer with mbuf := [r, 0#1 ++ v], explen := 3, st := .params } })

/-- R130: a data byte in Header with no running status yet is dropped and changes nothing. -/
def Obligations.DataWithoutRunningStatusDropped : Prop :=
  ∀ (s : State) (i : Instance) (c : FeedCall) (v : BitVec 7), s.openCall? = some (i, c) →
    i.framer.st = .header → i.framer.rs = none →
    ∀ k ∈ [Instr.data v, Instr.hdrDataNors (0#1 ++ v)], exec k s = .next s

/-! ## SysEx state -/

/-- R141: 0xF0 in SysEx closes the open frame with a synthetic 0xF7, emits it, and opens a new frame. -/
def Obligations.RestartRepairsFrame : Prop :=
  ∀ (s : State) (i : Instance) (c : FeedCall), s.openCall? = some (i, c) → i.framer.st = .sysEx →
    ∀ k ∈ [Instr.sysexStart, Instr.sxRestart],
      exec k s = .next (s.setLive s.current { i with framer :=
        { i.framer with
          sxbuf := [0xF0#8],
          out := i.framer.out ++ [{ msg := i.framer.sxbuf ++ [0xF7#8], ts := c.ts }] } })

/-- R142: any byte but 0xF0 and 0xF7 in SysEx is appended, data and status alike; nothing else is
written. The BYTE rows named by `k.byte?` are all 24 but SYSEX_START and EOX_F7. -/
def Obligations.SysExAppends : Prop :=
  ∀ (s : State) (i : Instance) (c : FeedCall) (k : Instr) (b : Byte), s.openCall? = some (i, c) →
    i.framer.st = .sysEx → k.byte? = some b ∨ k = .sxAppend b → b ≠ 0xF0#8 → b ≠ 0xF7#8 →
    exec k s = .next (s.setLive s.current { i with framer :=
      { i.framer with sxbuf := i.framer.sxbuf ++ [b] } })

/-- R143: 0xF7 in SysEx completes the frame, emits it, and returns to Header. -/
def Obligations.EoxCompletesFrame : Prop :=
  ∀ (s : State) (i : Instance) (c : FeedCall), s.openCall? = some (i, c) → i.framer.st = .sysEx →
    ∀ k ∈ [Instr.eoxF7, Instr.sxEox],
      exec k s = .next (s.setLive s.current { i with framer :=
        { i.framer with
          sxbuf := [], st := .header,
          out := i.framer.out ++ [{ msg := i.framer.sxbuf ++ [0xF7#8], ts := c.ts }] } })

/-! ## Params state -/

/-- R151: in Params any byte that brings the message to its expected length completes and emits it,
for each of the 24 BYTE rows and for PRM_APPEND. The message is that long, and where the invariants
hold its element 0 is the governing status byte. -/
def Obligations.ParamsCompletesMessage : Prop :=
  ∀ (s : State) (i : Instance) (c : FeedCall) (k : Instr) (b : Byte), s.openCall? = some (i, c) →
    i.framer.st = .params → k.byte? = some b ∨ k = .prmAppend b →
    i.framer.mbuf.length + 1 = i.framer.explen.val →
    exec k s = .next (s.setLive s.current { i with framer :=
      { i.framer with
        mbuf := [], st := .header,
        out := i.framer.out ++ [{ msg := i.framer.mbuf ++ [b], ts := c.ts }] } }) ∧
    (i.framer.mbuf ++ [b]).length = i.framer.explen.val ∧
    (i.framer.Inv → (i.framer.mbuf ++ [b]).head? = i.framer.rs)

/-- R152: in Params any byte that leaves the message short of its expected length is appended and
nothing else happens, for each of the 24 BYTE rows and for PRM_APPEND. Where the invariants hold this
is the second byte of three. -/
def Obligations.ParamsWaitsForMore : Prop :=
  ∀ (s : State) (i : Instance) (c : FeedCall) (k : Instr) (b : Byte), s.openCall? = some (i, c) →
    i.framer.st = .params → k.byte? = some b ∨ k = .prmAppend b →
    i.framer.mbuf.length + 1 < i.framer.explen.val →
    exec k s = .next (s.setLive s.current { i with framer :=
      { i.framer with mbuf := i.framer.mbuf ++ [b] } }) ∧
    (i.framer.Inv → i.framer.explen = 3 ∧ (i.framer.mbuf ++ [b]).length = 2)

/-! ## The rows -/

/-- In every state of the registers, reachable or not, a byte is handled by exactly one STEP row
(40_feed_command.md R104; 30_encoding.md R97): that row is well formed, takes that byte, completes,
and does what the BYTE row of the byte does; every other row that takes the byte does not apply. -/
def Obligations.ExactlyOneRowHandlesAByte : Prop :=
  ∀ (s : State) (i : Instance) (c : FeedCall) (b : Byte), s.openCall? = some (i, c) →
    (i.framer.rowFor b).wellFormed = true ∧ (i.framer.rowFor b).rowByte? = some b ∧
    (∃ t, exec (i.framer.rowFor b) s = .next t ∧ exec (decodeByte b) s = .next t) ∧
    (∀ row : Instr, row.rowByte? = some b → row ≠ i.framer.rowFor b →
      exec row s = .refused .rowDoesNotApply)

/-- Every BYTE row completes whenever a FEED presents its byte, in every state of the registers:
malformed input included, no byte is an error (60_exceptions.md R180; 30_encoding.md R91). -/
def Obligations.EveryByteCompletes : Prop :=
  ∀ (s : State) (i : Instance) (c : FeedCall) (k : Instr) (b : Byte), s.openCall? = some (i, c) →
    k.byte? = some b →
    exec k s = .next (s.setLive s.current { i with framer := i.framer.step b c.ts })

/-! ## Operations -/

/-- R101: on a live instance with no FEED in progress, a FEED with a non-positive count or an offset
out of range is a no-op. -/
def Obligations.FeedOutOfRangeIsNoOp : Prop :=
  ∀ (s : State) (h : Nat) (i : Instance) (data : List Byte) (off cnt : Int) (ts : Timestamp),
    s.live? h = some i → i.call = none →
    cnt ≤ 0 ∨ off < 0 ∨ (data.length : Int) ≤ off →
    exec (.feed h data off cnt ts) s = .next s

/-- R102: on a live instance with no FEED in progress, a FEED in range opens the window
[offset, min(offset + count, |data|)), clamped and not empty, over the caller's bytes. That FEED opens
its window in one step and walks it in the steps that follow is the model's choice (log 12). -/
def Obligations.FeedOpensItsWindow : Prop :=
  ∀ (s : State) (h : Nat) (i : Instance) (data : List Byte) (off cnt : Int) (ts : Timestamp),
    s.live? h = some i → i.call = none → 0 < cnt → 0 ≤ off → off < data.length →
    ∃ c : FeedCall, exec (.feed h data off cnt ts) s = .next (s.setLive h { i with call := some c }) ∧
      (c.cursor : Int) = off ∧ (c.stop : Int) = min (off + cnt) data.length ∧ c.ts = ts ∧
      c.cursor < c.stop ∧ c.stop ≤ data.length ∧ ∀ a : Nat, c.data.read a = data[a]?

/-- R110, the spec's own reading (D8): the two-operand form has the whole of its buffer as its window,
and is a no-op on an empty one. The window is walked in the steps that follow (log 12). -/
def Obligations.WholeBufferForm : Prop :=
  ∀ (s : State) (h : Nat) (i : Instance) (bytes : List Byte) (ts : Timestamp),
    s.live? h = some i → i.call = none →
    exec (.feedAll h bytes ts) s =
      .next (if bytes = [] then s else s.setLive h { i with call :=
        (some { data := Memory.ofBytes bytes, cursor := 0, stop := bytes.length, ts := ts }) })

/-- R113: NEW creates an instance in the reset state bound to its sink, at the end of the order of
creation, and changes nothing else; DISCARD ends an instance with no FEED in progress and emits
nothing, whatever is pending; after it the instance accepts no operation. `explen`, for which the spec
gives no value, is left open. That `out` outlives DISCARD is the model's choice (log 26), and so is the
name of the refusals (U12, log 16). -/
def Obligations.NewAndDiscard : Prop :=
  (∀ (s : State) (sink : Nat), ∃ f : Framer,
    exec (.new sink) s = .next { s with
      slots := s.slots ++ [.live { sink := sink, framer := f, call := none }] } ∧
    f.st = .header ∧ f.rs = none ∧ f.mbuf = [] ∧ f.sxbuf = [] ∧ f.out = []) ∧
  (∀ (s : State) (h : Nat) (i : Instance), s.live? h = some i → i.call = none →
    ∃ t, exec (.discard h) s = .next t ∧
      t = { s with slots := s.slots.set h (.discarded i.sink i.framer.out) } ∧
      t.emitted h = s.emitted h ∧ t.live? h = none ∧
      (∀ data off cnt ts, exec (.feed h data off cnt ts) t = .refused .notLive) ∧
      exec (.discard h) t = .refused .notLive)

/-- The inputs that the spec gives no meaning stop under their own names: a FEED that overlaps one in
progress (20_memory.md R50, log 14), FEED and DISCARD on an instance that is not live (U12, log 16),
DISCARD inside a FEED (the model's choice, log 15), a byte or a row outside any FEED (the model's choice, log 20). -/
def Obligations.MisuseIsRefused : Prop :=
  (∀ (s : State) (h : Nat) (i : Instance) (data : List Byte) (off cnt : Int) (ts : Timestamp),
    s.live? h = some i → i.call.isSome →
    exec (.feed h data off cnt ts) s = .refused .overlappingFeed ∧
    exec (.discard h) s = .refused .discardInsideFeed) ∧
  (∀ (s : State) (h : Nat) (data : List Byte) (off cnt : Int) (ts : Timestamp), s.live? h = none →
    exec (.feed h data off cnt ts) s = .refused .notLive ∧ exec (.discard h) s = .refused .notLive) ∧
  (∀ (s : State) (k : Instr), s.openCall? = none → k.byte?.isSome ∨ k.rowByte?.isSome →
    exec k s = .refused .noFeedInProgress)

/-! ## The Packetizer -/

/-- R161, R163: CHUNK with a timestamp and without one returns consecutive slices that concatenate to
its input, none longer than CHUNK_MAX, none for an empty input, all with the timestamp given or with
the one draw of NOW. That the whole result is appended to `chunkCalls` in one step is the model's way
of recording what CHUNK returns (log 21); `nowDraws` counts the draws (log 3), and that an empty input
without a timestamp draws too is the model's choice, which the spec says cannot be observed (R165,
log 27). -/
def Obligations.ChunksPartitionTheInput : Prop :=
  ∀ (s : State) (bytes : List Byte) (ts : Option Timestamp), ∃ (ps : List Packet) (t : Timestamp),
    exec (.chunk bytes ts) s = .next { s with
      chunkCalls := s.chunkCalls ++ [ps]
      nowDraws := if ts.isSome then s.nowDraws else s.nowDraws + 1 } ∧
    (ps.map Packet.bytes).flatten = bytes ∧
    (∀ p ∈ ps, p.bytes.length ≤ Config.chunkMax) ∧
    (bytes = [] → ps = []) ∧
    (∀ p ∈ ps, p.ts = t) ∧
    (∀ given, ts = some given → t = given) ∧
    (ts = none → t = Config.now s.nowDraws)

/-- R162, R171: the chunks are cut greedily, with a timestamp and without: chunk `k` is the slice from
`k * CHUNK_MAX` to `min((k + 1) * CHUNK_MAX, n)`, there are `ceil(n / CHUNK_MAX)` of them, none is
empty, and all have the timestamp given or the one draw of NOW (R164). The greedy cut is the spec's own
choice (D5, log 4), the count of draws the model's (logs 3, 27). -/
def Obligations.ChunksAreGreedy : Prop :=
  ∀ (s : State) (bytes : List Byte) (ts : Option Timestamp), ∃ ps : List Packet,
    exec (.chunk bytes ts) s = .next { s with
      chunkCalls := s.chunkCalls ++ [ps]
      nowDraws := if ts.isSome then s.nowDraws else s.nowDraws + 1 } ∧
    ps.length = (bytes.length + Config.chunkMax - 1) / Config.chunkMax ∧
    (∀ k < ps.length, ps[k]? = some
      { bytes := slice bytes (k * Config.chunkMax) (min ((k + 1) * Config.chunkMax) bytes.length)
        ts := ts.getD (Config.now s.nowDraws) }) ∧
    (∀ p ∈ ps, p.bytes ≠ [])

/-- Draws of NOW do not decrease: the one law the spec's own decision D6 gives them (00_scope.md R12;
the draws are free values, log 3). -/
def Obligations.ClockDrawsDoNotDecrease : Prop :=
  ∀ j k : Nat, j ≤ k → (Config.now j).val ≤ (Config.now k).val

/-! ## Reset and invariants -/

/-- R35: a new instance is in Header with no running status, empty buffers and nothing emitted (Header and
the empty buffers are the spec's own decision, D9); every instance of the machine after reset is a new
one (that there is one is the model's choice, log 10). -/
def Obligations.ResetStateOfAnInstance : Prop :=
  (∀ sink, (Instance.fresh sink).framer.st = .header ∧ (Instance.fresh sink).framer.rsValid = false ∧
    (Instance.fresh sink).framer.mbuf = [] ∧ (Instance.fresh sink).framer.sxbuf = [] ∧
    (Instance.fresh sink).framer.out = [] ∧ (Instance.fresh sink).call = none) ∧
  (∀ slot ∈ State.reset.slots, ∃ sink, slot = .live (Instance.fresh sink))

/-- The machine after reset (R35; one instance by the model's choice, log 10) meets the invariant. -/
def Obligations.ResetMeetsTheInvariants : Prop := State.reset.Inv

/-- Every step keeps the invariants of R30 to R33 on every instance, the four message formats of
everything emitted (R62), and the canonical form (log 22) and the window of every FEED in progress. -/
def Obligations.StepKeepsTheInvariants : Prop :=
  ∀ s t : State, s.Inv → step s = .next t → t.Inv

/-- Where the invariant holds no step faults, and a step stops only for a FEED or a DISCARD the
environment must not make (60_exceptions.md R180; that these stop is the model's choice, logs 14 to 16). -/
def Obligations.OnlyMisuseStops : Prop :=
  ∀ s : State, s.Inv →
    (∃ t, step s = .next t) ∨
    (∃ h data off cnt ts rest, s.host = .feed h data off cnt ts :: rest ∧
      ∀ i, s.live? h = some i → i.call.isSome) ∨
    (∃ h rest, s.host = .discard h :: rest ∧ ∀ i, s.live? h = some i → i.call.isSome)

/-! ## Whole-machine rules -/

/-- One STEP emits at most one message, under the timestamp of the FEED in progress, and a window emits
at most as many messages as it has bytes (40_feed_command.md R106, R107). -/
def Obligations.OneStepEmitsAtMostOne : Prop :=
  (∀ (s t : State) (i : Instance) (c : FeedCall) (k : Instr), s.openCall? = some (i, c) →
    k.byte?.isSome ∨ k.rowByte?.isSome → exec k s = .next t →
    t.emitted s.current = s.emitted s.current ∨
    ∃ m, t.emitted s.current = s.emitted s.current ++ [{ msg := m, ts := c.ts }]) ∧
  (∀ (f : Framer) (bs : List Byte) (ts : Timestamp), ∃ es : List Emission,
    (f.stepAll bs ts).out = f.out ++ es ∧ es.length ≤ bs.length ∧ ∀ e ∈ es, e.ts = ts)

/-- What was emitted stays emitted, DISCARD included, and no place in the order of creation is lost or
comes back to life (20_memory.md R54; 40_feed_command.md R113; that `out` outlives DISCARD is the model's
choice, log 26). -/
def Obligations.EmissionsAreNeverTakenBack : Prop :=
  ∀ s t : State, step s = .next t → ∀ h : Nat,
    s.emitted h <+: t.emitted h ∧ s.slots.length ≤ t.slots.length ∧
    (h < s.slots.length → s.live? h = none → t.live? h = none)

/-- The running status is written by a status byte other than 0xF0 stepped in Header, and by no other
byte in any state (10_state.md R22; 42_sysex_state.md R145; 43_params_state.md R154). -/
def Obligations.RunningStatusHasOneWriter : Prop :=
  ∀ (s : State) (i : Instance) (c : FeedCall) (k : Instr) (b : Byte), s.openCall? = some (i, c) →
    k.byte? = some b → ∃ (t : State) (j : Instance), exec k s = .next t ∧ t.live? s.current = some j ∧
      j.framer.rs = if i.framer.st = .header ∧ 0x80#8 ≤ b ∧ b ≠ 0xF0#8 then some b else i.framer.rs

/-- No step takes a live instance back to "no running status yet" (10_state.md R22, R36;
70_reset_and_hazards.md R201). -/
def Obligations.RunningStatusIsNeverCleared : Prop :=
  ∀ (s t : State) (h : Nat) (i j : Instance), step s = .next t → s.live? h = some i →
    t.live? h = some j → i.framer.rsValid = true → j.framer.rsValid = true

/-- The frame of every BYTE row and every STEP row: only the registers and the observation of the
current instance may change. Its sink, its FEED (cursor, window, timestamp) and every byte of every
FEED buffer, every other instance, what CHUNK returned, the events to come and the draws of NOW are
unchanged; and a frame under way or a message under way touches only its own buffer. -/
def Obligations.ByteAndRowFrame : Prop :=
  ∀ (s t : State) (k : Instr), k.byte?.isSome ∨ k.rowByte?.isSome → exec k s = .next t →
    ∃ (i : Instance) (c : FeedCall) (f : Framer), s.openCall? = some (i, c) ∧
      t = s.setLive s.current { i with framer := f } ∧
      (∀ h a, t.bufferByte h a = s.bufferByte h a) ∧
      (∀ h, h ≠ s.current → t.slots[h]? = s.slots[h]?) ∧
      (i.framer.st = .sysEx → f.rs = i.framer.rs ∧ f.explen = i.framer.explen ∧ f.mbuf = i.framer.mbuf) ∧
      (i.framer.st = .params → f.rs = i.framer.rs ∧ f.explen = i.framer.explen ∧ f.sxbuf = i.framer.sxbuf)

/-- The frames of NEW, FEED, DISCARD and CHUNK: NEW leaves every instance as it is; FEED changes no
register, no observation and no sink, only the FEED in progress on its own instance; DISCARD touches
its own instance alone; CHUNK touches no instance (10_state.md R34; 44_packetizer.md R167). The
buffers of the other instances' FEEDs read as before. -/
def Obligations.OperationFrames : Prop :=
  (∀ (s t : State) (sink : Nat), exec (.new sink) s = .next t →
    (∀ h < s.slots.length, t.slots[h]? = s.slots[h]?) ∧ (∀ h a, t.bufferByte h a = s.bufferByte h a) ∧
    { t with slots := s.slots } = s) ∧
  (∀ (s t : State) (h : Nat) (data : List Byte) (off cnt : Int) (ts : Timestamp),
    exec (.feed h data off cnt ts) s = .next t →
    (∃ i j, s.live? h = some i ∧ t.live? h = some j ∧ j.framer = i.framer ∧ j.sink = i.sink) ∧
    (∀ k, k ≠ h → t.slots[k]? = s.slots[k]?) ∧ (∀ k a, k ≠ h → t.bufferByte k a = s.bufferByte k a) ∧
    { t with slots := s.slots } = s) ∧
  (∀ (s t : State) (h : Nat), exec (.discard h) s = .next t →
    (∀ k, k ≠ h → t.slots[k]? = s.slots[k]?) ∧ (∀ k a, k ≠ h → t.bufferByte k a = s.bufferByte k a) ∧
    { t with slots := s.slots } = s) ∧
  (∀ (s t : State) (bytes : List Byte) (ts : Option Timestamp), exec (.chunk bytes ts) s = .next t →
    t.slots = s.slots ∧ t.current = s.current ∧ t.host = s.host ∧
    (∀ h a, t.bufferByte h a = s.bufferByte h a))

/-- Every FEED ends: while the environment does nothing, each step takes one of the turns the FEEDs in
progress still need (one for each window byte left and one to return), until none is left, and then the
machine holds its state (70_reset_and_hazards.md R213; the turns are the model's own, log 13). -/
def Obligations.EveryFeedEnds : Prop :=
  ∀ s : State, s.Inv → s.host = [] →
    (s.remaining = 0 → step s = .next s) ∧
    (0 < s.remaining → ∃ t, step s = .next t ∧ t.host = [] ∧ t.remaining + 1 = s.remaining)

/-- FEEDs on different instances do not affect each other: the turns of two instances may be taken in
either order (20_memory.md R52). -/
def Obligations.TurnsOfDistinctInstancesCommute : Prop :=
  ∀ (s t : State) (a b : Nat) (rest : List HostEvent), a ≠ b →
    runSteps 2 { s with host := .turn a :: .turn b :: rest } = .next t →
    ∃ t', runSteps 2 { s with host := .turn b :: .turn a :: rest } = .next t' ∧
      t'.slots = t.slots ∧ t'.host = t.host ∧ t'.chunkCalls = t.chunkCalls ∧ t'.nowDraws = t.nowDraws

/-- The machine's small steps refine FEED: the call, then one turn per window byte and one to return,
leaves the instance's registers as the loop of R103 leaves them, the FEED over, and every other instance as it
was (40_feed_command.md R102, R103; the small steps and turns are the model's choice, logs 12, 13). -/
def Obligations.FeedRefinesItsLoop : Prop :=
  ∀ (s : State) (h : Nat) (i : Instance) (data : List Byte) (off cnt : Int) (ts : Timestamp)
    (rest : List HostEvent) (first stop : Nat),
    s.live? h = some i → i.call = none →
    windowOf off cnt data.length = some (first, stop) →
    runSteps (1 + (stop - first + 1)) { s with host :=
        (.feed h data off cnt ts :: (List.replicate (stop - first + 1) (.turn h) ++ rest)) } =
      .next { s with
        host := rest
        current := h
        slots := s.slots.set h (.live { i with framer :=
          ((slice data first stop).foldl (fun f b => f.step b ts) i.framer) }) }

/-- Split invariance: a stream fed in one call and the same stream fed in any number of calls, of any
lengths and with any timestamps, emit the same byte lists and leave the same registers
(40_feed_command.md R109). -/
def Obligations.SplitInvariance : Prop :=
  ∀ (s : State) (h : Nat) (i : Instance) (parts : List (List Byte × Timestamp)) (ts : Timestamp),
    s.live? h = some i → i.call = none →
    ∃ (ta tb : State) (ia ib : Instance),
      runSteps (feedScript h [((parts.map Prod.fst).flatten, ts)]).length
        { s with host := feedScript h [((parts.map Prod.fst).flatten, ts)] } = .next ta ∧
      runSteps (feedScript h parts).length { s with host := feedScript h parts } = .next tb ∧
      ta.live? h = some ia ∧ tb.live? h = some ib ∧ ia.call = none ∧ ib.call = none ∧
      ia.framer.out.map Emission.msg = ib.framer.out.map Emission.msg ∧
      { ia.framer with out := [] } = { ib.framer with out := [] }

/-- Round trip with the Packetizer: feeding the chunks CHUNK returns, one per call and in order, leaves
the instance exactly as one FEED of the whole does (44_packetizer.md R169). -/
def Obligations.ChunksFedBackGiveTheSame : Prop :=
  ∀ (s : State) (h : Nat) (i : Instance) (bytes : List Byte) (t : Timestamp),
    s.live? h = some i → i.call = none →
    ∃ (ps : List Packet) (ta tb : State) (j : Instance),
      exec (.chunk bytes (some t)) s = .next { s with chunkCalls := s.chunkCalls ++ [ps] } ∧
      runSteps (feedScript h [(bytes, t)]).length { s with host := feedScript h [(bytes, t)] } = .next ta ∧
      runSteps (feedScript h (ps.map fun p => (p.bytes, p.ts))).length
        { s with host := feedScript h (ps.map fun p => (p.bytes, p.ts)) } = .next tb ∧
      ta.live? h = some j ∧ tb.live? h = some j ∧ j.call = none

/-- The CORE never inspects a timestamp: replacing every timestamp by any function of it, before an
instruction or a step or after it, gives the same (00_scope.md R8). A CHUNK that draws NOW is left
out, since its timestamp is no input. -/
def Obligations.TimestampsAreOpaque : Prop :=
  ∀ (g : Timestamp → Timestamp) (s : State),
    (∀ k : Instr, k.byte?.isSome ∨ k.rowByte?.isSome →
      exec k (s.retime g) = retimeOutcome g (exec k s)) ∧
    ((∀ bytes rest, s.host ≠ .chunk bytes none :: rest) →
      step (s.retime g) = retimeOutcome g (step s))

/-- Nothing is lost and nothing invented: a run of FEEDs from reset completes, and the instance then
accounts for everything fed: the stream is, in order, the dropped bytes, the emitted messages without
their carried-over status bytes and synthetic 0xF7 bytes, and at the end what is pending; a dropped byte
is one of X4 to X6, a carried-over status byte is the last status byte fed in Header, a synthetic 0xF7
stands before a 0xF0, and the running status is the last status byte met in Header, that of a message
under way too (10_state.md R22; 70_reset_and_hazards.md R215; that reset has an instance is the model's choice,
log 10, and so are the turns, log 13). -/
def Obligations.StreamIsConserved : Prop :=
  ∀ (h : Nat) (i : Instance) (parts : List (List Byte × Timestamp)), State.reset.live? h = some i →
    ∃ (t : State) (j : Instance),
      runSteps (feedScript h parts).length { State.reset with host := feedScript h parts } = .next t ∧
      t.live? h = some j ∧ j.framer.Accounts (parts.map Prod.fst).flatten

/-! ## Streams -/

/-- An unterminated frame absorbs everything: any bytes without 0xF0 and 0xF7, status and realtime
bytes included, only lengthen the open frame (42_sysex_state.md R144; 70_reset_and_hazards.md R210). -/
def Obligations.OpenFrameAbsorbs : Prop :=
  ∀ (f : Framer) (bs : List Byte) (ts : Timestamp), f.st = .sysEx →
    0xF0#8 ∉ bs → 0xF7#8 ∉ bs → f.stepAll bs ts = { f with sxbuf := f.sxbuf ++ bs }

/-- Leading data bytes are dropped: from Header with no running status, any run of data bytes leaves
the registers as they are (70_reset_and_hazards.md R204). -/
def Obligations.LeadingDataDropped : Prop :=
  ∀ (f : Framer) (bs : List Byte) (ts : Timestamp), f.st = .header → f.rs = none →
    (∀ b ∈ bs, b < 0x80#8) → f.stepAll bs ts = f

/-- Running status: in Header with empty buffers, leaving out a status byte equal to the running status
changes nothing, whatever follows the first data byte (30_encoding.md R63, R95). -/
def Obligations.RunningStatusStandsForItsByte : Prop :=
  ∀ (f : Framer) (r d : Byte) (bs : List Byte) (ts : Timestamp), f.Inv → f.st = .header →
    f.rs = some r → 2 ≤ (lenOf r).val → d < 0x80#8 →
    f.stepAll (d :: bs) ts = f.stepAll (r :: d :: bs) ts

/-! ## Suspension and conservation, step by step -/

/-- After the last byte of its window a FEED is still in progress; the next turn of its instance ends it
and does nothing else (40_feed_command.md R103; 70_reset_and_hazards.md R206; that the return is a turn
of its own is the model's choice, logs 12, 13). -/
def Obligations.FeedReturnsAfterItsWindow : Prop :=
  ∀ (s : State) (h : Nat) (i : Instance) (c : FeedCall),
    s.live? h = some i → i.call = some c → c.stop ≤ c.cursor →
    (∀ rest, s.host = .turn h :: rest →
      step s = .next (State.setLive { s with host := rest, current := h } h { i with call := none })) ∧
    (s.host = [] → (∀ k < h, ∀ j, s.live? k = some j → j.call = none) →
      step s = .next (State.setLive { s with current := h } h { i with call := none }))

/-- The sink runs inside its FEED: whenever a step emits a message of instance `h`, at the last byte of
its window too, the FEED is still in progress, so that a FEED or DISCARD of `h` that the sink makes is
refused, while CHUNK, NEW and a FEED on another idle instance complete (60_exceptions.md R194;
70_reset_and_hazards.md R206; the names of the refusals are logs 14 and 15). -/
def Obligations.SinkRunsInsideItsFeed : Prop :=
  ∀ (s t : State) (h : Nat), step s = .next t → t.emitted h ≠ s.emitted h →
    (∀ data off cnt ts, exec (.feed h data off cnt ts) t = .refused .overlappingFeed) ∧
    exec (.discard h) t = .refused .discardInsideFeed ∧
    (∀ bytes ts, ∃ u, exec (.chunk bytes ts) t = .next u) ∧
    (∀ sink, ∃ u, exec (.new sink) t = .next u) ∧
    (∀ k i data off cnt ts, t.live? k = some i → i.call = none →
      ∃ u, exec (.feed k data off cnt ts) t = .next u)

/-- A new instance accounts for the empty stream: nothing was stepped on it yet. -/
def Obligations.FreshInstanceAccountsForNothing : Prop :=
  ∀ sink, (Instance.fresh sink).framer.Accounts []

/-- Every step conserves the stream of every instance: one that meets R30 to R33 and accounts for the
bytes stepped on it so far accounts, after the step, for those bytes and the one the step presents to
it, if any (70_reset_and_hazards.md R215). -/
def Obligations.StepConservesTheStream : Prop :=
  ∀ (s t : State) (h : Nat) (i j : Instance) (stream : List Byte),
    s.live? h = some i → i.framer.Inv → i.framer.Accounts stream →
    step s = .next t → t.live? h = some j → j.framer.Accounts (stream ++ s.presented h)
end

