-- ==== Sys2Proof/Laws/State.lean ====
section
/-! SUPPORT. The small lemmas of the state: one per field per update, and what looking up an instance
gives after one is put in place. -/

namespace Sys2Proof.Machine

@[simp] theorem State.setLive_chunkCalls (s : State) (h : Nat) (i : Instance) :
    (s.setLive h i).chunkCalls = s.chunkCalls := rfl
@[simp] theorem State.setLive_current (s : State) (h : Nat) (i : Instance) :
    (s.setLive h i).current = s.current := rfl
@[simp] theorem State.setLive_host (s : State) (h : Nat) (i : Instance) :
    (s.setLive h i).host = s.host := rfl
@[simp] theorem State.setLive_nowDraws (s : State) (h : Nat) (i : Instance) :
    (s.setLive h i).nowDraws = s.nowDraws := rfl
@[simp] theorem State.setLive_slots (s : State) (h : Nat) (i : Instance) :
    (s.setLive h i).slots = s.slots.set h (.live i) := rfl

/-- Where a live instance stands in the list. -/
theorem State.live?_eq_some {s : State} {h : Nat} {i : Instance} :
    s.live? h = some i ↔ s.slots[h]? = some (.live i) := by
  unfold State.live?
  split <;> simp_all

/-- A live instance's place exists. -/
theorem State.live?_lt {s : State} {h : Nat} {i : Instance} (hi : s.live? h = some i) :
    h < s.slots.length :=
  (List.getElem?_eq_some_iff.mp (State.live?_eq_some.mp hi)).1

@[simp] theorem State.live?_with_host (s : State) (es : List HostEvent) (h : Nat) :
    ({ s with host := es } : State).live? h = s.live? h := rfl
@[simp] theorem State.live?_with_current (s : State) (k h : Nat) :
    ({ s with current := k } : State).live? h = s.live? h := rfl

theorem State.live?_setLive_self {s : State} {h : Nat} {j : Instance} (hj : s.live? h = some j)
    (i : Instance) : (s.setLive h i).live? h = some i := by
  simp [State.live?_eq_some, State.live?_lt hj]

theorem State.live?_setLive_ne {s : State} {h k : Nat} (hk : k ≠ h) (i : Instance) :
    (s.setLive h i).live? k = s.live? k := by
  simp [State.live?, List.getElem?_set_ne (Ne.symm hk)]

/-- Putting an instance back where it stands changes nothing. -/
theorem State.setLive_same {s : State} {h : Nat} {i : Instance} (hi : s.live? h = some i) :
    s.setLive h i = s := by
  have hs : s.slots.set h (.live i) = s.slots := by
    obtain ⟨lt, at_h⟩ := List.getElem?_eq_some_iff.mp (State.live?_eq_some.mp hi)
    rw [← at_h, List.set_getElem_self]
  cases s
  simp_all [State.setLive]

@[simp] theorem State.setLive_setLive (s : State) (h : Nat) (i j : Instance) :
    (s.setLive h i).setLive h j = s.setLive h j := by
  simp [State.setLive]

/-- The instance being stepped and its FEED, as two facts about the state. -/
theorem State.openCall?_eq_some {s : State} {i : Instance} {c : FeedCall} :
    s.openCall? = some (i, c) ↔ s.live? s.current = some i ∧ i.call = some c := by
  unfold State.openCall?
  split <;> rename_i h
  · simp only [h, Option.map_eq_some_iff, Prod.mk.injEq, Option.some.injEq]
    exact ⟨fun ⟨_, hc, hi, hcc⟩ => ⟨hi, hi ▸ hcc ▸ hc⟩, fun ⟨hi, hc⟩ => ⟨c, hi ▸ hc, hi, rfl⟩⟩
  · simp [h]

@[simp] theorem Framer.emit_mbuf_out (ts : Timestamp) (f : Framer) :
    (f.emit .mbuf ts).out = f.out ++ [{ msg := f.mbuf, ts := ts }] := rfl
@[simp] theorem Framer.emit_mbuf_mbuf (ts : Timestamp) (f : Framer) : (f.emit .mbuf ts).mbuf = [] := rfl
@[simp] theorem Framer.emit_mbuf_sxbuf (ts : Timestamp) (f : Framer) :
    (f.emit .mbuf ts).sxbuf = f.sxbuf := rfl
@[simp] theorem Framer.emit_sxbuf_out (ts : Timestamp) (f : Framer) :
    (f.emit .sxbuf ts).out = f.out ++ [{ msg := f.sxbuf, ts := ts }] := rfl
@[simp] theorem Framer.emit_sxbuf_mbuf (ts : Timestamp) (f : Framer) :
    (f.emit .sxbuf ts).mbuf = f.mbuf := rfl
@[simp] theorem Framer.emit_sxbuf_sxbuf (ts : Timestamp) (f : Framer) :
    (f.emit .sxbuf ts).sxbuf = [] := rfl
@[simp] theorem Framer.emit_st (src : BufferName) (ts : Timestamp) (f : Framer) :
    (f.emit src ts).st = f.st := by cases src <;> rfl
@[simp] theorem Framer.emit_rs (src : BufferName) (ts : Timestamp) (f : Framer) :
    (f.emit src ts).rs = f.rs := by cases src <;> rfl
@[simp] theorem Framer.emit_explen (src : BufferName) (ts : Timestamp) (f : Framer) :
    (f.emit src ts).explen = f.explen := by cases src <;> rfl

/-- The fourth 2-bit code of the parser state is never produced (10_state.md R21). -/
theorem ParserState.code_ne (p : ParserState) : p.code ≠ 0b11#2 := by cases p <;> decide

end Sys2Proof.Machine
end

