-- ==== Sys2Proof/Laws/Exec.lean ====
section
/-! SUPPORT. What the shared operations behind the meanings can do, each said once. -/

namespace Sys2Proof.Machine

/-- A transition that answers a next state ran on the instance being stepped, under the timestamp of
its FEED, where its condition held; it changed that instance's registers and nothing else. -/
theorem State.onRow_next {s t : State} {applies : Framer → Bool} {act : Timestamp → Framer → Framer}
    (h : s.onRow applies act = .next t) :
    ∃ i c, s.openCall? = some (i, c) ∧ applies i.framer = true ∧
      t = s.setLive s.current { i with framer := act c.ts i.framer } := by
  unfold State.onRow at h
  split at h
  · cases h
  · rename_i i c ho
    split at h
    · rename_i ha
      exact ⟨i, c, ho, ha, by cases h; rfl⟩
    · cases h

/-- A transition whose condition holds completes. -/
theorem State.onRow_of_applies {s : State} {i : Instance} {c : FeedCall}
    (ho : s.openCall? = some (i, c)) {applies : Framer → Bool} (ha : applies i.framer = true)
    (act : Timestamp → Framer → Framer) :
    s.onRow applies act = .next (s.setLive s.current { i with framer := act c.ts i.framer }) := by
  simp [State.onRow, ho, ha]

/-- A row whose condition fails does not apply. -/
theorem State.onRow_of_not_applies {s : State} {i : Instance} {c : FeedCall}
    (ho : s.openCall? = some (i, c)) {applies : Framer → Bool} (ha : applies i.framer = false)
    (act : Timestamp → Framer → Framer) : s.onRow applies act = .refused .rowDoesNotApply := by
  simp [State.onRow, ho, ha]

/-- Outside any FEED no transition runs. -/
theorem State.onRow_of_no_call {s : State} (ho : s.openCall? = none) (applies : Framer → Bool)
    (act : Timestamp → Framer → Framer) : s.onRow applies act = .refused .noFeedInProgress := by
  simp [State.onRow, ho]

/-- Every BYTE row presents its byte. -/
theorem exec_byte {k : Instr} {b : Byte} (hk : k.byte? = some b) (s : State) :
    exec k s = s.presentByte b := by
  cases k <;> simp only [Instr.byte?, Option.some.injEq, reduceCtorEq] at hk <;> subst hk <;> rfl

/-- Every BYTE row and every STEP row is a transition on the registers. -/
theorem exec_eq_onRow {k : Instr} (hk : k.byte?.isSome ∨ k.rowByte?.isSome) :
    ∃ applies act, ∀ s, exec k s = s.onRow applies act := by
  rcases hk with hk | hk
  · obtain ⟨b, hb⟩ := Option.isSome_iff_exists.mp hk
    exact ⟨_, _, fun s => exec_byte hb s⟩
  · cases k with
    | hdrSysexStart => exact ⟨Framer.inHeader, fun _ f => f.hdrSysexStart, fun _ => rfl⟩
    | hdrStatus b => exact ⟨Framer.takesStatus b, fun ts f => f.hdrStatus b ts, fun _ => rfl⟩
    | hdrDataRs b => exact ⟨Framer.takesDataRs b, fun ts f => f.hdrDataRs b ts, fun _ => rfl⟩
    | hdrDataNors b => exact ⟨Framer.takesDataNors b, fun _ f => f.hdrDataNors, fun _ => rfl⟩
    | sxRestart => exact ⟨Framer.inSysEx, fun ts f => f.sxRestart ts, fun _ => rfl⟩
    | sxEox => exact ⟨Framer.inSysEx, fun ts f => f.sxEox ts, fun _ => rfl⟩
    | sxAppend b => exact ⟨Framer.takesAppend b, fun _ f => f.sxAppend b, fun _ => rfl⟩
    | prmAppend b => exact ⟨Framer.inParams, fun ts f => f.prmAppend b ts, fun _ => rfl⟩
    | _ => simp [Instr.rowByte?] at hk

/-- What a FEED that answers a next state did: it opened its window on a live, idle instance. -/
theorem execFeed_next {h : Nat} {data : List Byte} {off cnt : Int} {ts : Timestamp} {s t : State}
    (hx : execFeed h data off cnt ts s = .next t) :
    ∃ i, s.live? h = some i ∧ i.call = none ∧
      t = s.setLive h { i with call := FeedCall.start? data off cnt ts } := by
  unfold execFeed at hx
  split at hx
  · cases hx
  · rename_i i hi
    split at hx
    · cases hx
    · rename_i hc
      exact ⟨i, hi, by simpa using hc, by cases hx; rfl⟩

/-- What a DISCARD that answers a next state did: it ended a live, idle instance. -/
theorem execDiscard_next {h : Nat} {s t : State} (hx : execDiscard h s = .next t) :
    ∃ i, s.live? h = some i ∧ i.call = none ∧
      t = { s with slots := s.slots.set h (.discarded i.sink i.framer.out) } := by
  unfold execDiscard at hx
  split at hx
  · cases hx
  · rename_i i hi
    split at hx
    · cases hx
    · rename_i hc
      exact ⟨i, hi, by simpa using hc, by cases hx; rfl⟩

/-- The window of a FEED in range: not empty, and inside the buffer (40_feed_command.md R102). -/
theorem windowOf_some {off cnt : Int} {len i j : Nat} (h : windowOf off cnt len = some (i, j)) :
    0 < cnt ∧ (i : Int) = off ∧ (j : Int) = min (off + cnt) len ∧ i < j ∧ j ≤ len := by
  unfold windowOf at h
  split at h
  · cases h
  · simp only [Option.some.injEq, Prod.mk.injEq] at h
    omega

/-- Moving on changes the FEED in progress on the current instance and nothing else. -/
theorem State.advance_of_call {s : State} {i : Instance} {c : FeedCall}
    (ho : s.openCall? = some (i, c)) :
    s.advance = s.setLive s.current { i with call := some c.advance } := by
  simp [State.advance, ho]

/-- The return of a FEED takes it off the current instance and changes nothing else. -/
theorem State.endFeed_of_call {s : State} {i : Instance} {c : FeedCall}
    (ho : s.openCall? = some (i, c)) : s.endFeed = s.setLive s.current { i with call := none } := by
  simp [State.endFeed, ho]

/-- What the turn of an instance is, when a FEED is in progress on it whose cursor stands on a byte of
its window. -/
theorem State.takeTurn_fetched {s : State} {h : Nat} {i : Instance} {c : FeedCall} {b : Byte}
    (hi : s.live? h = some i) (hc : i.call = some c) (hw : c.cursor < c.stop)
    (hb : c.data.read c.cursor = some b) :
    s.takeTurn h = .fetched (decodeByte b) { s with current := h } := by
  have ho : State.openCall? { s with current := h } = some (i, c) :=
    State.openCall?_eq_some.mpr ⟨hi, hc⟩
  simp [State.takeTurn, ho, FeedCall.atEnd, Nat.not_le.mpr hw, FeedCall.fetchBytes, hb, decode]

/-- The turn of an instance whose FEED has stepped every byte of its window: the FEED returns. -/
theorem State.takeTurn_finish {s : State} {h : Nat} {i : Instance} {c : FeedCall}
    (hi : s.live? h = some i) (hc : i.call = some c) (hw : c.stop ≤ c.cursor) :
    s.takeTurn h = .finish (State.setLive { s with current := h } h { i with call := none }) := by
  have ho : State.openCall? { s with current := h } = some (i, c) :=
    State.openCall?_eq_some.mpr ⟨hi, hc⟩
  simp [State.takeTurn, ho, FeedCall.atEnd, hw, State.endFeed_of_call ho]

/-- The turn of an instance without a FEED. -/
theorem State.takeTurn_idle {s : State} {h : Nat} (hi : ∀ i, s.live? h = some i → i.call = none) :
    s.takeTurn h = .idle { s with current := h } := by
  have ho : State.openCall? { s with current := h } = none := by
    cases hl : s.live? h with
    | none => simp [State.openCall?, hl]
    | some i => simp [State.openCall?, hl, hi i hl]
  simp [State.takeTurn, ho]

end Sys2Proof.Machine
end

