-- ==== Sys2Proof/Laws/Memory.lean ====
section
/-! SUPPORT. The FEED buffer: what a read of a caller's buffer gives, and that every buffer a FEED is
opened over has the canonical form. The CORE never writes a buffer (20_memory.md R42). -/

namespace Sys2Proof.Machine

theorem Memory.read_ofBytesFrom (bs : List Byte) (k a : Nat) :
    Memory.read (Memory.ofBytesFrom k bs) a = if k ≤ a then bs[a - k]? else none := by
  induction bs generalizing k with
  | nil => simp [Memory.ofBytesFrom, Memory.read]
  | cons b bs ih =>
    rw [Memory.ofBytesFrom, Memory.read, ih]
    by_cases h : k = a
    · simp [h]
    · by_cases hle : k ≤ a
      · have : a - k = a - (k + 1) + 1 := by omega
        simp [h, hle, show k + 1 ≤ a by omega, this]
      · simp [h, hle, show ¬ k + 1 ≤ a by omega]

/-- A caller's buffer reads as its list of bytes; an index outside it does not exist. -/
@[simp] theorem Memory.read_ofBytes (bs : List Byte) (a : Nat) :
    Memory.read (Memory.ofBytes bs) a = bs[a]? := by
  simp [Memory.ofBytes, Memory.read_ofBytesFrom]

theorem Memory.map_fst_ofBytesFrom (bs : List Byte) (k : Nat) :
    (Memory.ofBytesFrom k bs).map Prod.fst = List.range' k bs.length := by
  induction bs generalizing k with
  | nil => rfl
  | cons b bs ih => simp [Memory.ofBytesFrom, ih, List.range'_succ]

@[simp] theorem Memory.length_ofBytes (bs : List Byte) : (Memory.ofBytes bs).length = bs.length := by
  have := congrArg List.length (Memory.map_fst_ofBytesFrom bs 0)
  simpa [Memory.ofBytes] using this

/-- Every caller's buffer is in canonical form. -/
theorem Memory.wf_ofBytes (bs : List Byte) : (Memory.ofBytes bs).wf = true := by
  simp [Memory.wf, Memory.ofBytes, Memory.map_fst_ofBytesFrom, List.range_eq_range']
  rw [← Memory.ofBytes, Memory.length_ofBytes]

/-- A FEED is opened over a buffer in canonical form. -/
theorem FeedCall.start?_wf {data : List Byte} {off cnt : Int} {ts : Timestamp} {c : FeedCall}
    (h : FeedCall.start? data off cnt ts = some c) : c.data.wf = true := by
  obtain ⟨_, _, rfl⟩ := Option.map_eq_some_iff.mp h
  exact Memory.wf_ofBytes data

@[simp] theorem FeedCall.advance_data (c : FeedCall) : c.advance.data = c.data := rfl
@[simp] theorem FeedCall.advance_cursor (c : FeedCall) : c.advance.cursor = c.cursor + 1 := rfl
@[simp] theorem FeedCall.advance_stop (c : FeedCall) : c.advance.stop = c.stop := rfl
@[simp] theorem FeedCall.advance_ts (c : FeedCall) : c.advance.ts = c.ts := rfl

/-- Placing bytes puts them in canonical form. -/
theorem FeedCall.over_wf (bs : List Byte) (ts : Timestamp) : (FeedCall.over bs ts).data.wf = true :=
  Memory.wf_ofBytes bs

/-- After reset there is no FEED buffer, so every buffer is in canonical form. -/
theorem State.reset_wf {h : Nat} {i : Instance} {c : FeedCall} (hi : State.reset.live? h = some i)
    (hc : i.call = some c) : c.data.wf = true := by
  match h, hi with
  | 0, hi => cases hi; cases hc
  | _ + 1, hi => simp [State.live?, State.reset] at hi

/-- In canonical form every index below the length exists. -/
theorem Memory.exists_read {m : Memory} (hm : m.wf = true) {a : Nat} (ha : a < m.length) :
    ∃ b, m.read a = some b := by
  have general : ∀ (m : Memory) (k : Nat), m.map Prod.fst = List.range' k m.length →
      ∀ a, k ≤ a → a < k + m.length → ∃ b, m.read a = some b := by
    intro m
    induction m with
    | nil => intro k _ a h1 h2; simp at h2; omega
    | cons x rest ih =>
      obtain ⟨key, b⟩ := x
      intro k hk a h1 h2
      simp only [List.map_cons, List.length_cons, List.range'_succ, List.cons.injEq] at hk
      rw [Memory.read]
      by_cases hka : key = a
      · exact ⟨b, by simp [hka]⟩
      · rw [if_neg hka]
        exact ih (k + 1) hk.2 a (by omega) (by simp at h2; omega)
  exact general m 0 (by simpa [Memory.wf, List.range_eq_range'] using hm) a (by omega) (by omega)

end Sys2Proof.Machine
end

