-- ==== Sys2Proof/Laws/PerInstr.lean ====
section
/-! SUPPORT. Statements about every instruction as syntax, one lemma per constructor. -/

namespace Sys2Proof.Laws.EncodeOneByte

/-- An instruction that has bytes has exactly one (00_scope.md R6, R7). -/
def Statement (k : Instr) : Prop := ∀ bs, encode k = some bs → bs.length = 1

/-- The encoder never gives anything but one byte. -/
theorem of_any (k : Instr) : Statement k := by
  intro bs h
  unfold encode at h
  split at h
  · cases h; rfl
  · obtain ⟨_, _, rfl⟩ := Option.map_eq_some_iff.mp h; rfl

theorem data (v : BitVec 7) : Statement (.data v) := of_any _
theorem st8n (n : BitVec 4) : Statement (.st8n n) := of_any _
theorem st9n (n : BitVec 4) : Statement (.st9n n) := of_any _
theorem stAn (n : BitVec 4) : Statement (.stAn n) := of_any _
theorem stBn (n : BitVec 4) : Statement (.stBn n) := of_any _
theorem stCn (n : BitVec 4) : Statement (.stCn n) := of_any _
theorem stDn (n : BitVec 4) : Statement (.stDn n) := of_any _
theorem stEn (n : BitVec 4) : Statement (.stEn n) := of_any _
theorem sysexStart : Statement .sysexStart := of_any _
theorem scF1 : Statement .scF1 := of_any _
theorem scF2 : Statement .scF2 := of_any _
theorem scF3 : Statement .scF3 := of_any _
theorem undefF4 : Statement .undefF4 := of_any _
theorem undefF5 : Statement .undefF5 := of_any _
theorem scF6 : Statement .scF6 := of_any _
theorem eoxF7 : Statement .eoxF7 := of_any _
theorem rtF8 : Statement .rtF8 := of_any _
theorem undefF9 : Statement .undefF9 := of_any _
theorem rtFA : Statement .rtFA := of_any _
theorem rtFB : Statement .rtFB := of_any _
theorem rtFC : Statement .rtFC := of_any _
theorem undefFD : Statement .undefFD := of_any _
theorem rtFE : Statement .rtFE := of_any _
theorem rtFF : Statement .rtFF := of_any _
theorem hdrSysexStart : Statement .hdrSysexStart := of_any _
theorem hdrStatus (b : Byte) : Statement (.hdrStatus b) := of_any _
theorem hdrDataRs (b : Byte) : Statement (.hdrDataRs b) := of_any _
theorem hdrDataNors (b : Byte) : Statement (.hdrDataNors b) := of_any _
theorem sxRestart : Statement .sxRestart := of_any _
theorem sxEox : Statement .sxEox := of_any _
theorem sxAppend (b : Byte) : Statement (.sxAppend b) := of_any _
theorem prmAppend (b : Byte) : Statement (.prmAppend b) := of_any _
theorem new (sink : Nat) : Statement (.new sink) := of_any _
theorem feed (h : Nat) (data : List Byte) (offset count : Int) (ts : Timestamp) : Statement (.feed h data offset count ts) := of_any _
theorem discard (h : Nat) : Statement (.discard h) := of_any _
theorem chunk (bytes : List Byte) (ts : Option Timestamp) : Statement (.chunk bytes ts) := of_any _

end Sys2Proof.Laws.EncodeOneByte
end

