-- ==== Sys2Proof/Laws/Step.lean ====
section
/-! SUPPORT. Everything a step can do, said once. -/

namespace Sys2Proof.Machine

/-- A byte that completes on the current instance, then the move past it: one change of that instance. -/
theorem advanceOutcome_onRow {s : State} {i : Instance} {c : FeedCall}
    (ho : s.openCall? = some (i, c)) (act : Timestamp → Framer → Framer) :
    advanceOutcome (s.onRow (fun _ => true) act) =
      .next (s.setLive s.current { i with framer := act c.ts i.framer, call := some c.advance }) := by
  obtain ⟨hi, hc⟩ := State.openCall?_eq_some.mp ho
  rw [State.onRow_of_applies ho rfl]
  have ho' : (s.setLive s.current { i with framer := act c.ts i.framer }).openCall? =
      some ({ i with framer := act c.ts i.framer }, c) :=
    State.openCall?_eq_some.mpr ⟨State.live?_setLive_self hi _, hc⟩
  simp [advanceOutcome, State.advance_of_call ho']

/-- The step of a window byte: one STEP on its instance's registers, and the move past it. -/
theorem step_of_turn {s : State} {h : Nat} {i : Instance} {c : FeedCall} {b : Byte}
    {rest : List HostEvent} (hh : s.host = .turn h :: rest) (hi : s.live? h = some i)
    (hc : i.call = some c) (hw : c.cursor < c.stop) (hb : c.data.read c.cursor = some b) :
    step s = .next (State.setLive { s with host := rest, current := h } h
      { i with framer := i.framer.step b c.ts, call := some c.advance }) := by
  have hf := State.takeTurn_fetched (s := { s with host := rest }) hi hc hw hb
  have ho : State.openCall? { s with host := rest, current := h } = some (i, c) :=
    State.openCall?_eq_some.mpr ⟨hi, hc⟩
  have hx : ∀ x : Byte, (decodeByte x).byte? = some x := by decide
  simp only [step, State.nextAction, hh, hf, exec_byte (hx b), State.presentByte]
  exact advanceOutcome_onRow ho _

/-- The step after the last window byte of an instance's FEED: the FEED returns. -/
theorem step_of_finish {s : State} {h : Nat} {i : Instance} {c : FeedCall} {rest : List HostEvent}
    (hh : s.host = .turn h :: rest) (hi : s.live? h = some i) (hc : i.call = some c)
    (hw : c.stop ≤ c.cursor) :
    step s = .next (State.setLive { s with host := rest, current := h } h { i with call := none }) := by
  have hf := State.takeTurn_finish (s := { s with host := rest }) hi hc hw
  simp only [step, State.nextAction, hh, hf]

/-- What a step that answers a next state did. -/
inductive StepCase (s t : State) : Prop
  /-- No byte and no call: at most an event was used up and an instance named. -/
  | idle (es : List HostEvent) (k : Nat) (eq : t = { s with host := es, current := k })
  /-- One STEP on a window byte of instance `h`, and the move past it. -/
  | byte (es : List HostEvent) (h : Nat) (i : Instance) (c : FeedCall) (b : Byte)
    (live : s.live? h = some i) (call : i.call = some c) (inWindow : c.cursor < c.stop)
    (read : c.data.read c.cursor = some b)
    (eq : t = State.setLive { s with host := es, current := h } h
      { i with framer := i.framer.step b c.ts, call := some c.advance })
  /-- The return of the FEED of instance `h`, whose window is done. -/
  | finish (es : List HostEvent) (h : Nat) (i : Instance) (c : FeedCall) (live : s.live? h = some i)
    (call : i.call = some c) (done : c.stop ≤ c.cursor)
    (eq : t = State.setLive { s with host := es, current := h } h { i with call := none })
  /-- NEW. -/
  | new (es : List HostEvent) (sink : Nat)
    (eq : t = { s with host := es, slots := s.slots ++ [.live (Instance.fresh sink)] })
  /-- FEED on instance `h`, which was idle. -/
  | feed (es : List HostEvent) (h : Nat) (i : Instance) (data : List Byte) (off cnt : Int)
    (ts : Timestamp) (live : s.live? h = some i) (call : i.call = none)
    (eq : t = State.setLive { s with host := es } h
      { i with call := FeedCall.start? data off cnt ts })
  /-- DISCARD of instance `h`, which was idle. -/
  | discard (es : List HostEvent) (h : Nat) (i : Instance) (live : s.live? h = some i)
    (call : i.call = none)
    (eq : t = { s with host := es, slots := s.slots.set h (.discarded i.sink i.framer.out) })
  /-- CHUNK. -/
  | chunk (es : List HostEvent) (ps : List Packet) (n : Nat)
    (eq : t = { s with host := es, chunkCalls := s.chunkCalls ++ [ps], nowDraws := n })

/-- A turn that answers a next state was idle, stepped a byte or ended a FEED. -/
theorem stepCase_of_turn {s t : State} (es : List HostEvent) (h : Nat)
    (hx : (match State.takeTurn { s with host := es } h with
      | .idle s' => Host.Outcome.next s'
      | .call i s' => exec i s'
      | .fetched i s' => advanceOutcome (exec i s')
      | .finish s' => .next s'
      | .badFetch => .fault .readOutsideBuffer) = .next t) : StepCase s t := by
  cases hl : s.live? h with
  | none =>
    rw [State.takeTurn_idle (fun i hi => by simp [hl] at hi)] at hx
    exact .idle es h (by cases hx; rfl)
  | some i =>
    cases hc : i.call with
    | none =>
      rw [State.takeTurn_idle (fun j hj => by simp [hl] at hj; exact hj ▸ hc)] at hx
      exact .idle es h (by cases hx; rfl)
    | some c =>
      by_cases hw : c.cursor < c.stop
      · cases hb : c.data.read c.cursor with
        | none =>
          have ho : State.openCall? { s with host := es, current := h } = some (i, c) :=
            State.openCall?_eq_some.mpr ⟨hl, hc⟩
          simp [State.takeTurn, ho, FeedCall.atEnd, Nat.not_le.mpr hw, FeedCall.fetchBytes, hb,
            decode] at hx
        | some b =>
          have hs := step_of_turn (s := { s with host := .turn h :: es }) rfl hl hc hw hb
          exact .byte es h i c b hl hc hw hb (by have ht := hs.symm.trans hx; cases ht; rfl)
      · have hw := Nat.not_lt.mp hw
        have hs := step_of_finish (s := { s with host := .turn h :: es }) rfl hl hc hw
        exact .finish es h i c hl hc hw (by have ht := hs.symm.trans hx; cases ht; rfl)

/-- Everything a step that answers a next state can have done. -/
theorem step_cases {s t : State} (hx : step s = .next t) : StepCase s t := by
  unfold step State.nextAction at hx
  cases hh : s.host with
  | nil =>
    have hs : ({ s with host := [] } : State) = s := by cases s; simp_all
    simp only [hh] at hx
    cases hf : s.firstFeeding with
    | none =>
      simp only [hf] at hx
      exact .idle [] s.current (by cases hx; exact hs.symm)
    | some h =>
      simp only [hf] at hx
      exact stepCase_of_turn [] h (by rw [hs]; exact hx)
  | cons e es =>
    simp only [hh] at hx
    cases e with
    | turn h => exact stepCase_of_turn es h hx
    | new sink => exact .new es sink (by cases hx; rfl)
    | feed h data off cnt ts =>
      obtain ⟨i, hi, hc, rfl⟩ := execFeed_next hx
      exact .feed es h i data off cnt ts hi hc rfl
    | discard h =>
      obtain ⟨i, hi, hc, rfl⟩ := execDiscard_next hx
      exact .discard es h i hi hc rfl
    | chunk bytes ts =>
      cases ts with
      | some t' => exact .chunk es _ s.nowDraws (by cases hx; rfl)
      | none => exact .chunk es _ (s.nowDraws + 1) (by cases hx; rfl)

end Sys2Proof.Machine
end

