-- ==== Sys2Proof/Tests/Slice0.lean ====
section
/-! SUPPORT. The model's own tests. Every expected result is taken from spec/95_test_vectors.md (the
vector or source example is named), from a rule's example, or from an encoding string of
spec/opcode_table.json; the witnesses show that the hypotheses of each statement are met. -/

namespace Sys2Proof.Tests

open Sys2Proof Sys2Proof.Machine

/-- The timestamp of the tests: some timestamp, no matter which. -/
def ts0 : Timestamp := Config.someTimestamp

/-- A machine with one instance whose registers are `f` and on which a FEED presents `bs`. -/
def feeding (f : Framer) (bs : List Byte) : State :=
  { State.reset with slots := [.live { sink := 0, framer := f, call := some (FeedCall.over bs ts0) }] }

/-- The registers of instance 0 in the state an outcome gives. -/
def framerOf (o : Host.Outcome State Fault Refusal) : Option Framer :=
  match o with
  | .next s => (s.live? 0).map Instance.framer
  | .fault _ => none
  | .refused _ => none

/-- The registers after one step on the byte `b`. -/
def after (f : Framer) (b : Byte) : Option Framer := framerOf (step (feeding f [b]))

/-- What the spec's vectors show of the registers: st, rs, mbuf, sxbuf, and the messages with their timestamps. -/
structure Shown where
  st : ParserState
  rs : Option Byte
  mbuf : List Byte
  sxbuf : List Byte
  out : List (List Byte)
  deriving DecidableEq, Repr

/-- What the vectors show of the registers `f`. -/
def shown (f : Framer) : Shown := { st := f.st, rs := f.rs, mbuf := f.mbuf, sxbuf := f.sxbuf, out := f.out.map Emission.msg }

/-- Registers in Header with a running status. -/
def running (r : Byte) : Framer := { Framer.reset with rs := some r }

/-- Registers in Params. -/
def underWay (bs : List Byte) (len : Fin 4) : Framer :=
  { Framer.reset with st := .params, rs := bs.head?, explen := len, mbuf := bs }

/-- Registers in SysEx, with no running status. -/
def openFrame (bs : List Byte) : Framer := { Framer.reset with st := .sysEx, sxbuf := bs }

/-! ## Well-formedness: an ill-formed term for each check -/

theorem test_hdrStatus_wants_a_status_byte : (Instr.hdrStatus 0x7F#8).wellFormed = false := by decide
theorem test_hdrStatus_wants_not_F0 : (Instr.hdrStatus 0xF0#8).wellFormed = false := by decide
theorem test_hdrDataRs_wants_a_data_byte : (Instr.hdrDataRs 0x80#8).wellFormed = false := by decide
theorem test_hdrDataNors_wants_a_data_byte : (Instr.hdrDataNors 0xFF#8).wellFormed = false := by decide
theorem test_sxAppend_wants_not_F0 : (Instr.sxAppend 0xF0#8).wellFormed = false := by decide
theorem test_sxAppend_wants_not_F7 : (Instr.sxAppend 0xF7#8).wellFormed = false := by decide
theorem test_well_formed_rows :
    (Instr.hdrStatus 0x80#8).wellFormed ∧ (Instr.hdrDataRs 0x7F#8).wellFormed ∧
    (Instr.hdrDataNors 0x00#8).wellFormed ∧ (Instr.sxAppend 0xF8#8).wellFormed ∧
    (Instr.prmAppend 0xF0#8).wellFormed := by decide

/-! ## Decoding: a word written out for every BYTE row from its encoding string; the STEP rows' bytes
decode to BYTE rows and the CMD rows have no word (30_encoding.md R98) -/

theorem test_decode_data : decode [0b01111110#8, 0xF0#8] = .ok (.data 0b1111110#7, [0xF0#8]) := by decide
theorem test_decode_channel :
    decodeByte 0b10000001#8 = .st8n 0b0001#4 ∧ decodeByte 0b10010010#8 = .st9n 0b0010#4 ∧
    decodeByte 0b10100100#8 = .stAn 0b0100#4 ∧ decodeByte 0b10111000#8 = .stBn 0b1000#4 ∧
    decodeByte 0b11001110#8 = .stCn 0b1110#4 ∧ decodeByte 0b11011101#8 = .stDn 0b1101#4 ∧
    decodeByte 0b11101011#8 = .stEn 0b1011#4 := by decide
theorem test_decode_system :
    decodeByte 0b11110000#8 = .sysexStart ∧ decodeByte 0b11110001#8 = .scF1 ∧
    decodeByte 0b11110010#8 = .scF2 ∧ decodeByte 0b11110011#8 = .scF3 ∧
    decodeByte 0b11110100#8 = .undefF4 ∧ decodeByte 0b11110101#8 = .undefF5 ∧
    decodeByte 0b11110110#8 = .scF6 ∧ decodeByte 0b11110111#8 = .eoxF7 ∧
    decodeByte 0b11111000#8 = .rtF8 ∧ decodeByte 0b11111001#8 = .undefF9 ∧
    decodeByte 0b11111010#8 = .rtFA ∧ decodeByte 0b11111011#8 = .rtFB ∧
    decodeByte 0b11111100#8 = .rtFC ∧ decodeByte 0b11111101#8 = .undefFD ∧
    decodeByte 0b11111110#8 = .rtFE ∧ decodeByte 0b11111111#8 = .rtFF := by decide
theorem test_decode_empty : decode [] = .error .emptyStream := by decide
theorem test_decodeTableWord : decodeTableWord 8 0xB7 = some (.stBn 7#4) := by decide
theorem test_encode_row : encode (.hdrStatus 0xC1#8) = some [0xC1#8] ∧ encode (.new 0) = none := by decide

/-- 95_test_vectors.md section 2: the totals of LEN over all bytes. -/
theorem test_len_totals :
    (((List.range 256).map fun n => lenOf (BitVec.ofNat 8 n)).count 0,
      ((List.range 256).map fun n => lenOf (BitVec.ofNat 8 n)).count 1,
      ((List.range 256).map fun n => lenOf (BitVec.ofNat 8 n)).count 2,
      ((List.range 256).map fun n => lenOf (BitVec.ofNat 8 n)).count 3) = (134, 7, 34, 81) := by
  decide +kernel

/-! ## One byte from reset, every BYTE row (95_test_vectors.md section 3) -/

theorem test_V_H1_data : (after Framer.reset 0x3C#8).map shown =
    some ⟨.header, none, [], [], []⟩ := by decide
theorem test_V_H2_st8n : (after Framer.reset 0x80#8).map shown =
    some ⟨.params, some 0x80#8, [0x80#8], [], []⟩ := by decide
theorem test_st9n_R67 : (after Framer.reset 0x90#8).map shown =
    some ⟨.params, some 0x90#8, [0x90#8], [], []⟩ := by decide
theorem test_V_H3_stAn : (after Framer.reset 0xA1#8).map shown =
    some ⟨.params, some 0xA1#8, [0xA1#8], [], []⟩ := by decide
theorem test_V_H4_stBn : (after Framer.reset 0xB0#8).map shown =
    some ⟨.params, some 0xB0#8, [0xB0#8], [], []⟩ := by decide
theorem test_V_H5_stCn : (after Framer.reset 0xC5#8).map shown =
    some ⟨.params, some 0xC5#8, [0xC5#8], [], []⟩ := by decide
theorem test_V_H6_stDn : (after Framer.reset 0xD2#8).map shown =
    some ⟨.params, some 0xD2#8, [0xD2#8], [], []⟩ := by decide
theorem test_V_H7_stEn : (after Framer.reset 0xE0#8).map shown =
    some ⟨.params, some 0xE0#8, [0xE0#8], [], []⟩ := by decide
theorem test_V_H8_sysexStart : (after Framer.reset 0xF0#8).map shown =
    some ⟨.sysEx, none, [], [0xF0#8], []⟩ := by decide
theorem test_V_H9_scF1 : (after Framer.reset 0xF1#8).map shown =
    some ⟨.params, some 0xF1#8, [0xF1#8], [], []⟩ := by decide
theorem test_V_H10_scF2 : (after Framer.reset 0xF2#8).map shown =
    some ⟨.params, some 0xF2#8, [0xF2#8], [], []⟩ := by decide
theorem test_V_H11_scF3 : (after Framer.reset 0xF3#8).map shown =
    some ⟨.params, some 0xF3#8, [0xF3#8], [], []⟩ := by decide
theorem test_V_H12_undefF4 : (after Framer.reset 0xF4#8).map shown =
    some ⟨.header, some 0xF4#8, [], [], []⟩ := by decide
theorem test_V_H13_undefF5 : (after Framer.reset 0xF5#8).map shown =
    some ⟨.header, some 0xF5#8, [], [], []⟩ := by decide
theorem test_V_H14_scF6 : (after Framer.reset 0xF6#8).map shown =
    some ⟨.header, some 0xF6#8, [], [], [[0xF6#8]]⟩ := by decide
theorem test_V_H15_eoxF7 : (after Framer.reset 0xF7#8).map shown =
    some ⟨.header, some 0xF7#8, [], [], []⟩ := by decide
theorem test_V_H16_rtF8 : (after Framer.reset 0xF8#8).map shown =
    some ⟨.header, some 0xF8#8, [], [], [[0xF8#8]]⟩ := by decide
theorem test_V_H17_undefF9 : (after Framer.reset 0xF9#8).map shown =
    some ⟨.header, some 0xF9#8, [], [], []⟩ := by decide
theorem test_V_H18_rtFA : (after Framer.reset 0xFA#8).map shown =
    some ⟨.header, some 0xFA#8, [], [], [[0xFA#8]]⟩ := by decide
theorem test_V_H19_rtFB : (after Framer.reset 0xFB#8).map shown =
    some ⟨.header, some 0xFB#8, [], [], [[0xFB#8]]⟩ := by decide
theorem test_V_H20_rtFC : (after Framer.reset 0xFC#8).map shown =
    some ⟨.header, some 0xFC#8, [], [], [[0xFC#8]]⟩ := by decide
theorem test_V_H21_undefFD : (after Framer.reset 0xFD#8).map shown =
    some ⟨.header, some 0xFD#8, [], [], []⟩ := by decide
theorem test_V_H22_rtFE : (after Framer.reset 0xFE#8).map shown =
    some ⟨.header, some 0xFE#8, [], [], [[0xFE#8]]⟩ := by decide
theorem test_V_H23_rtFF : (after Framer.reset 0xFF#8).map shown =
    some ⟨.header, some 0xFF#8, [], [], [[0xFF#8]]⟩ := by decide

/-- The expected lengths after V-H5 and V-H7. -/
theorem test_explen : (after Framer.reset 0xC5#8).map Framer.explen = some 2 ∧
    (after Framer.reset 0xE0#8).map Framer.explen = some 3 := by decide

/-! ## The other states, one byte each -/

/-- V-H31: a data byte under LEN(rs) = 1 is dropped. -/
theorem test_V_H31_data : (after (running 0xF6#8) 0x10#8).map shown =
    some ⟨.header, some 0xF6#8, [], [], []⟩ := by decide
/-- V-P2: a realtime byte in Params is swallowed. -/
theorem test_V_P2_rtF8 : (after (underWay [0x90#8] 3) 0xF8#8).map shown =
    some ⟨.params, some 0x90#8, [0x90#8, 0xF8#8], [], []⟩ := by decide
/-- V-P3: a status byte in Params completes the message; the running status stays. -/
theorem test_V_P3_st8n : (after (underWay [0x90#8, 0x3C#8] 3) 0x80#8).map shown =
    some ⟨.header, some 0x90#8, [], [], [[0x90#8, 0x3C#8, 0x80#8]]⟩ := by decide
/-- V-P4: F0 in Params opens no frame. -/
theorem test_V_P4_sysexStart : (after (underWay [0xB0#8] 3) 0xF0#8).map shown =
    some ⟨.params, some 0xB0#8, [0xB0#8, 0xF0#8], [], []⟩ := by decide
/-- V-P6: a two-byte message completed by F7. -/
theorem test_V_P6_eoxF7 : (after (underWay [0xC0#8] 2) 0xF7#8).map shown =
    some ⟨.header, some 0xC0#8, [], [], [[0xC0#8, 0xF7#8]]⟩ := by decide
/-- V-X3: a channel status inside a frame is swallowed and is no running status. -/
theorem test_V_X3_st9n : (after (openFrame [0xF0#8, 0x01#8]) 0x90#8).map shown =
    some ⟨.sysEx, none, [], [0xF0#8, 0x01#8, 0x90#8], []⟩ := by decide

/-! ## The STEP rows on their own -/

/-- 42_sysex_state.md R141, HMC section 8: the repair of a frame. -/
theorem test_S3_sxRestart : (framerOf (exec .sxRestart (feeding (openFrame [0xF0#8, 0x01#8, 0x02#8]) [0xF0#8]))).map
    shown = some ⟨.sysEx, none, [], [0xF0#8], [[0xF0#8, 0x01#8, 0x02#8, 0xF7#8]]⟩ := by decide
/-- V-X2: two F0 in a row emit the empty frame. -/
theorem test_V_X2_sxRestart : (framerOf (exec .sxRestart (feeding (openFrame [0xF0#8]) [0xF0#8]))).map shown =
    some ⟨.sysEx, none, [], [0xF0#8], [[0xF0#8, 0xF7#8]]⟩ := by decide
/-- V-X1: the empty frame. -/
theorem test_V_X1_sxEox : (framerOf (exec .sxEox (feeding (openFrame [0xF0#8]) [0xF7#8]))).map shown =
    some ⟨.header, none, [], [], [[0xF0#8, 0xF7#8]]⟩ := by decide
/-- 42_sysex_state.md R142, its example. -/
theorem test_sxAppend : (framerOf (exec (.sxAppend 0x7E#8) (feeding (openFrame [0xF0#8]) [0x7E#8]))).map shown =
    some ⟨.sysEx, none, [], [0xF0#8, 0x7E#8], []⟩ := by decide
/-- 43_params_state.md R152, its example. -/
theorem test_prmAppend : (framerOf (exec (.prmAppend 0x00#8) (feeding (underWay [0xE0#8] 3) [0x00#8]))).map shown =
    some ⟨.params, some 0xE0#8, [0xE0#8, 0x00#8], [], []⟩ := by decide
/-- 43_params_state.md R151, HMC section 8. -/
theorem test_S1_prmAppend :
    (framerOf (exec (.prmAppend 0x64#8) (feeding (underWay [0x90#8, 0x3C#8] 3) [0x64#8]))).map shown =
    some ⟨.header, some 0x90#8, [], [], [[0x90#8, 0x3C#8, 0x64#8]]⟩ := by decide
/-- V-H24: a two-byte message under running status. -/
theorem test_V_H24_hdrDataRs : (framerOf (exec (.hdrDataRs 0x08#8) (feeding (running 0xC5#8) [0x08#8]))).map shown =
    some ⟨.header, some 0xC5#8, [], [], [[0xC5#8, 0x08#8]]⟩ := by decide
/-- 41_header_state.md R129, its example. -/
theorem test_S1_hdrDataRs : (framerOf (exec (.hdrDataRs 0x40#8) (feeding (running 0x90#8) [0x40#8]))).map shown =
    some ⟨.params, some 0x90#8, [0x90#8, 0x40#8], [], []⟩ := by decide
/-- V-H25: a realtime byte in Header replaces the running status. -/
theorem test_V_H25_hdrStatus : (framerOf (exec (.hdrStatus 0xF8#8) (feeding (running 0x90#8) [0xF8#8]))).map shown =
    some ⟨.header, some 0xF8#8, [], [], [[0xF8#8]]⟩ := by decide
/-- V-H30: a frame leaves the running status alone. -/
theorem test_V_H30_hdrSysexStart : (framerOf (exec .hdrSysexStart (feeding (running 0x90#8) [0xF0#8]))).map shown =
    some ⟨.sysEx, some 0x90#8, [], [0xF0#8], []⟩ := by decide
/-- V-H32: a leading data byte is dropped. -/
theorem test_V_H32_hdrDataNors : (framerOf (exec (.hdrDataNors 0x3C#8) (feeding Framer.reset [0x3C#8]))).map shown =
    some ⟨.header, none, [], [], []⟩ := by decide
/-- 30_encoding.md R98: a row of another state does not apply. -/
theorem test_row_of_another_state : (match exec .sxEox (feeding Framer.reset [0xF7#8]) with
    | .refused r => some r
    | _ => none) = some .rowDoesNotApply := by decide

/-! ## The operations -/

/-- HMC section 8 (S4): offset 1, count 3 of five bytes is the window of indices 1, 2, 3. -/
theorem test_S4_window : windowOf 1 3 5 = some (1, 4) := by decide
/-- V-W2 to V-W7: the no-ops and the clamped window. -/
theorem test_V_W_windows : windowOf 0 0 3 = none ∧ windowOf 0 (-1) 3 = none ∧ windowOf (-1) 3 3 = none ∧
    windowOf 3 1 3 = none ∧ windowOf 2 100 3 = some (2, 3) ∧ windowOf 0 1 0 = none := by decide
/-- V-W9: the FEED opens the window of indices 3 to 5 with its timestamp, whichever that is. -/
theorem test_V_W9_feed (ts : Timestamp) :
    (match exec (.feed 0 [0x90, 0x3C, 0x40, 0x80, 0x3C, 0x00] 3 3 ts) State.reset with
    | .next s => ((s.live? 0).bind Instance.call).map fun c => (c.cursor, c.stop, c.ts, c.data.read 3)
    | _ => none) = some (3, 6, ts, some 0x80#8) := rfl
/-- 40_feed_command.md R106: a message carries the timestamp of the FEED that completed it. -/
theorem test_R106_timestamp (ts : Timestamp) :
    Framer.out (Framer.step 0x64#8 ts (underWay [0x90#8, 0x3C#8] 3)) =
      [{ msg := [0x90#8, 0x3C#8, 0x64#8], ts := ts }] := rfl
/-- 70_reset_and_hazards.md R206: after the last byte of its window, which emits, the FEED is suspended
while the sink runs, and a FEED that the sink makes on the same instance is refused (R194). -/
theorem test_R206_sink_of_last_byte : (match step (feeding Framer.reset [0xF8#8]) with
    | .next s => (match exec (.feed 0 [0xF8#8] 0 1 ts0) s with
      | .refused x => some x
      | _ => none)
    | _ => none) = some .overlappingFeed := by decide
/-- Its next turn ends that FEED. -/
theorem test_feed_returns : (match runSteps 2 (feeding Framer.reset [0xF8#8]) with
    | .next s => some (s.live? 0).isSome
    | _ => none) = some true ∧ (match runSteps 2 (feeding Framer.reset [0xF8#8]) with
    | .next s => (s.live? 0).map fun i => i.call.isSome
    | _ => none) = some false := by decide
/-- 40_feed_command.md R113: NEW adds an instance in the reset state. -/
theorem test_new : (match exec (.new 7) State.reset with
    | .next s => (s.live? 1).map fun i => shown i.framer
    | _ => none) = some ⟨.header, none, [], [], []⟩ := by decide
/-- R113: the new instance is bound to the sink NEW was given. -/
theorem test_new_sink : (match exec (.new 7) State.reset with
    | .next s => (s.live? 1).map Instance.sink
    | _ => none) = some 7 := by decide
/-- 70_reset_and_hazards.md R202: DISCARD emits nothing for the pending message. -/
theorem test_discard : (match exec (.discard 0)
      { State.reset with slots := [.live { sink := 3, framer := underWay [0x90#8, 0x3C#8] 3, call := none }] } with
    | .next s => some s.slots
    | _ => none) = some [.discarded 3 []] := by decide
/-- V-C10, under any timestamp. -/
theorem test_V_C10_chunk (ts : Timestamp) : chunksOf 3 [0x90, 0x3C, 0x40, 0x80, 0x3C, 0x00, 0xF8] ts =
    [⟨[0x90, 0x3C, 0x40], ts⟩, ⟨[0x80, 0x3C, 0x00], ts⟩, ⟨[0xF8], ts⟩] := rfl
/-- V-C12: a frame is cut in the middle and nothing is inserted. -/
theorem test_V_C12_chunk (ts : Timestamp) : chunksOf 4 [0xF0, 0x01, 0x02, 0x03, 0x04, 0x05, 0xF7] ts =
    [⟨[0xF0, 0x01, 0x02, 0x03], ts⟩, ⟨[0x04, 0x05, 0xF7], ts⟩] := rfl
/-- The word placed by withFetchWord is the very next instruction (V-H8). -/
theorem test_withFetchWord : (framerOf (step (State.reset.withFetchWord 8 0xF0))).map shown =
    some ⟨.sysEx, none, [], [0xF0#8], []⟩ := by decide

/-! ## Witnesses: the hypotheses of the statements are met -/

/-- The FEED of `feeding f [b]`. -/
def oneByte (b : Byte) : FeedCall := FeedCall.over [b] ts0

/-- The instance of `feeding f [b]`. -/
def instanceOf (f : Framer) (b : Byte) : Instance := { sink := 0, framer := f, call := some (oneByte b) }

theorem witness_DecodeEncodeAgree : (Instr.stEn 15#4).byte? = some 0xEF#8 ∧ (Instr.data 0#7).byte? = some 0#8 ∧
    Instr.rtFF.byte? = some 0xFF#8 := by decide
theorem witness_StepRunsTheDecodedByte_turn :
    State.live? { feeding Framer.reset [0xF0#8] with host := [.turn 0] } 0 = some (instanceOf Framer.reset 0xF0#8) ∧
    (instanceOf Framer.reset 0xF0#8).call = some (oneByte 0xF0#8) ∧
    (oneByte 0xF0#8).cursor < (oneByte 0xF0#8).stop ∧
    (oneByte 0xF0#8).data.read (oneByte 0xF0#8).cursor = some 0xF0#8 := ⟨rfl, rfl, by decide, rfl⟩
theorem witness_StepRunsTheDecodedByte_default :
    (feeding Framer.reset [0xF0#8]).host = [] ∧
    ∀ k < 0, ∀ j, (feeding Framer.reset [0xF0#8]).live? k = some j → j.call = none :=
  ⟨rfl, fun _ h => absurd h (Nat.not_lt_zero _)⟩
theorem witness_AdvanceMovesTheCursor : (feeding Framer.reset [0#8, 1#8]).openCall? =
    some ({ sink := 0, framer := Framer.reset, call := some (FeedCall.over [0#8, 1#8] ts0) },
      FeedCall.over [0#8, 1#8] ts0) := rfl
/-- The FEED over `[b]` after its only byte. -/
def oneByteDone (b : Byte) : FeedCall := { oneByte b with cursor := 1 }
theorem witness_FeedReturnsAfterItsWindow :
    State.live? { State.reset with slots := [.live { instanceOf Framer.reset 0#8 with call := some (oneByteDone 0#8) }] } 0 =
      some { instanceOf Framer.reset 0#8 with call := some (oneByteDone 0#8) } ∧
    (oneByteDone 0#8).stop ≤ (oneByteDone 0#8).cursor := ⟨rfl, by decide⟩
/-- The step of the last byte of a window emits. -/
theorem witness_SinkRunsInsideItsFeed : ∃ t, step (feeding Framer.reset [0xF8#8]) = .next t ∧
    (t.emitted 0).length ≠ ((feeding Framer.reset [0xF8#8]).emitted 0).length := ⟨_, rfl, by decide⟩
/-- R22: after a fed 0x90 the running status is 0x90, and no registers without one account for it. -/
theorem test_R22_accounts : ¬ { underWay [0x90#8] 3 with rs := none }.Accounts [0x90#8] := by
  rintro ⟨_, carried, -, -, -, hrs, hcarried⟩
  cases carried with
  | false => simp [underWay] at hrs
  | true => simp [underWay] at hcarried
/-- A frame under way accounts for its bytes, and the next step presents one more. -/
theorem witness_StepConservesTheStream : (openFrame [0xF0#8]).Inv ∧ (openFrame [0xF0#8]).Accounts [0xF0#8] ∧
    (feeding (openFrame [0xF0#8]) [0xF7#8]).presented 0 = [0xF7#8] ∧
    ∃ t, step (feeding (openFrame [0xF0#8]) [0xF7#8]) = .next t := by
  refine ⟨⟨?_, ?_, fun _ => ⟨[], ?_⟩, ?_, ?_⟩, ⟨[], false, ?_⟩, by decide, _, rfl⟩ <;>
    simp [openFrame, Framer.reset, Framer.pending, piecesOk]
theorem witness_StepMakesTheHostsCall :
    ({ State.reset with host := [.new 1] } : State).host = .new 1 :: [] ∧
    ({ State.reset with host := [.feed 0 [0#8] 0 1 ts0] } : State).host = .feed 0 [0#8] 0 1 ts0 :: [] ∧
    ({ State.reset with host := [.discard 0] } : State).host = .discard 0 :: [] ∧
    ({ State.reset with host := [.chunk [0#8] none] } : State).host = .chunk [0#8] none :: [] :=
  ⟨rfl, rfl, rfl, rfl⟩
theorem witness_ClockDrawsDoNotDecrease : (0 : Nat) ≤ 1 := by decide
theorem witness_IdleHoldsTheState_idle : State.reset.host = [] ∧
    ∀ h i, State.reset.live? h = some i → i.call = none := by
  refine ⟨rfl, fun h i hi => ?_⟩
  match h, hi with
  | 0, hi => cases hi; rfl
  | _ + 1, hi => simp [State.live?, State.reset] at hi
theorem witness_IdleHoldsTheState_turn : ({ State.reset with host := [.turn 1] } : State).host = [.turn 1] ∧
    ∀ i, ({ State.reset with host := [.turn 1] } : State).live? 1 = some i → i.call = none :=
  ⟨rfl, fun _ hi => by simp [State.live?, State.reset] at hi⟩
/-- For SysexStartOpensFrame, UnrecognisedStatusDropped, OneByteMessageEmitted, StatusStartsMessage,
EveryByteCompletes, RunningStatusHasOneWriter, ExactlyOneRowHandlesAByte. -/
theorem witness_header_byte : (feeding Framer.reset [0xF0#8]).openCall? =
      some (instanceOf Framer.reset 0xF0#8, oneByte 0xF0#8) ∧
    (instanceOf Framer.reset 0xF0#8).framer.st = .header := by
  refine ⟨rfl, ?_⟩
  decide
theorem witness_DataWithoutRoomDropped : (feeding (running 0xF8#8) [0x7F#8]).openCall? =
      some (instanceOf (running 0xF8#8) 0x7F#8, oneByte 0x7F#8) ∧
    (running 0xF8#8).st = .header ∧ (running 0xF8#8).rs = some 0xF8#8 ∧ (lenOf 0xF8#8).val ≤ 1 := by
  refine ⟨rfl, ?_⟩
  decide
theorem witness_RunningStatusTwoByteMessage : (feeding (running 0xDF#8) [0#8]).openCall? =
      some (instanceOf (running 0xDF#8) 0#8, oneByte 0#8) ∧
    (running 0xDF#8).st = .header ∧ (running 0xDF#8).rs = some 0xDF#8 ∧ lenOf 0xDF#8 = 2 := by
  refine ⟨rfl, ?_⟩
  decide
theorem witness_RunningStatusStartsThreeByteMessage : (feeding (running 0xF2#8) [0#8]).openCall? =
      some (instanceOf (running 0xF2#8) 0#8, oneByte 0#8) ∧
    (running 0xF2#8).st = .header ∧ (running 0xF2#8).rs = some 0xF2#8 ∧ lenOf 0xF2#8 = 3 := by
  refine ⟨rfl, ?_⟩
  decide
theorem witness_DataWithoutRunningStatusDropped : (feeding Framer.reset [0x3C#8]).openCall? =
      some (instanceOf Framer.reset 0x3C#8, oneByte 0x3C#8) ∧ Framer.reset.st = .header ∧
    Framer.reset.rs = none := by
  refine ⟨rfl, ?_⟩
  decide
/-- For RestartRepairsFrame, SysExAppends, EoxCompletesFrame. -/
theorem witness_sysEx_byte : (feeding (openFrame [0xF0#8]) [0xF8#8]).openCall? =
      some (instanceOf (openFrame [0xF0#8]) 0xF8#8, oneByte 0xF8#8) ∧ (openFrame [0xF0#8]).st = .sysEx ∧
    Instr.rtF8.byte? = some 0xF8#8 ∧ (0xF8#8 : Byte) ≠ 0xF0#8 ∧ (0xF8#8 : Byte) ≠ 0xF7#8 := by
  refine ⟨rfl, ?_⟩
  decide
theorem witness_ParamsCompletesMessage : (feeding (underWay [0xC0#8] 2) [0xF0#8]).openCall? =
      some (instanceOf (underWay [0xC0#8] 2) 0xF0#8, oneByte 0xF0#8) ∧ (underWay [0xC0#8] 2).st = .params ∧
    Instr.sysexStart.byte? = some 0xF0#8 ∧
    (underWay [0xC0#8] 2).mbuf.length + 1 = (underWay [0xC0#8] 2).explen.val := by
  refine ⟨rfl, ?_⟩
  decide
theorem witness_ParamsWaitsForMore : (feeding (underWay [0x90#8] 3) [0xFF#8]).openCall? =
      some (instanceOf (underWay [0x90#8] 3) 0xFF#8, oneByte 0xFF#8) ∧ (underWay [0x90#8] 3).st = .params ∧
    Instr.rtFF.byte? = some 0xFF#8 ∧
    (underWay [0x90#8] 3).mbuf.length + 1 < (underWay [0x90#8] 3).explen.val := by
  refine ⟨rfl, ?_⟩
  decide
/-- For the clauses on the invariant of ParamsCompletesMessage and ParamsWaitsForMore. -/
theorem witness_Params_invariant : (underWay [0xC0#8] 2).Inv ∧ (underWay [0x90#8] 3).Inv := by
  refine ⟨⟨?_, fun _ => ⟨0xC0#8, [], ?_⟩, ?_, ?_, ?_⟩, ⟨?_, fun _ => ⟨0x90#8, [], ?_⟩, ?_, ?_, ?_⟩⟩ <;>
    simp [underWay, Framer.reset] <;> decide
theorem witness_ExactlyOneRowHandlesAByte : (Instr.hdrStatus 0xF0#8).rowByte? = some 0xF0#8 ∧
    Instr.hdrStatus 0xF0#8 ≠ Framer.reset.rowFor 0xF0#8 := by decide
/-- For FeedOutOfRangeIsNoOp, FeedOpensItsWindow, WholeBufferForm, NewAndDiscard, FeedRefinesItsLoop,
SplitInvariance, ChunksFedBackGiveTheSame, StreamIsConserved. -/
theorem witness_live_idle : State.reset.live? 0 = some (Instance.fresh 0) ∧ (Instance.fresh 0).call = none := by
  refine ⟨rfl, ?_⟩
  decide
theorem witness_FeedOutOfRangeIsNoOp_count : (0 : Int) ≤ 0 ∨ (0 : Int) < 0 ∨ (([1#8] : List Byte).length : Int) ≤ 0 := by
  decide
theorem witness_FeedOutOfRangeIsNoOp_negative : ¬ (1 : Int) ≤ 0 ∧ (-1 : Int) < 0 := by decide
theorem witness_FeedOutOfRangeIsNoOp_end : ¬ (1 : Int) ≤ 0 ∧ ¬ (1 : Int) < 0 ∧ (([1#8] : List Byte).length : Int) ≤ 1 := by
  decide
theorem witness_FeedOpensItsWindow : (0 : Int) < 1 ∧ (0 : Int) ≤ 0 ∧ (0 : Int) < (([1#8] : List Byte).length : Int) := by
  decide
theorem witness_MisuseIsRefused : (feeding Framer.reset [0#8]).live? 0 = some (instanceOf Framer.reset 0#8) ∧
    (instanceOf Framer.reset 0#8).call.isSome ∧ State.reset.live? 1 = none ∧ State.reset.openCall? = none ∧
    Instr.eoxF7.byte?.isSome ∧ Instr.sxEox.rowByte?.isSome := by
  refine ⟨rfl, ?_⟩
  decide
theorem witness_step_from_reset : ∃ t, step State.reset = .next t := ⟨State.reset, rfl⟩
/-- For StepKeepsTheInvariants (with witness_step_from_reset) and OnlyMisuseStops. -/
theorem witness_Inv : State.reset.Inv := by
  intro slot hs
  simp only [State.reset, List.mem_singleton] at hs
  subst hs
  refine ⟨⟨fun _ => ⟨rfl, rfl⟩, ?_, ?_, ?_, ?_⟩, ?_⟩ <;> simp [Instance.fresh, Framer.reset]
theorem witness_Inv_feeding : (feeding Framer.reset [0#8]).Inv := by
  intro slot hs
  simp only [feeding, List.mem_singleton] at hs
  subst hs
  refine ⟨⟨fun _ => ⟨rfl, rfl⟩, ?_, ?_, ?_, ?_⟩, ?_⟩ <;> simp [Framer.reset]
  exact ⟨by decide, by decide, by decide⟩
theorem witness_EveryFeedEnds : (feeding Framer.reset [0#8]).host = [] ∧ 0 < (feeding Framer.reset [0#8]).remaining ∧
    State.reset.host = [] ∧ State.reset.remaining = 0 := by decide
/-- For OneStepEmitsAtMostOne and ByteAndRowFrame. -/
theorem witness_exec_byte : ∃ t, exec .rtF8 (feeding Framer.reset [0xF8#8]) = .next t ∧
    t.emitted 0 = [{ msg := [0xF8#8], ts := ts0 }] := ⟨_, rfl, rfl⟩
theorem witness_EmissionsAreNeverTakenBack : (0 : Nat) < [Slot.discarded 0 []].length ∧
    State.live? { State.reset with slots := [.discarded 0 []] } 0 = none ∧
    ∃ t, step { State.reset with slots := [.discarded 0 []] } = .next t := ⟨by decide, by decide, _, rfl⟩
theorem witness_RunningStatusIsNeverCleared : (running 0x90#8).rsValid = true ∧
    (after (running 0x90#8) 0x40#8).map Framer.rsValid = some true := by decide
theorem witness_OperationFrames : (∃ t, exec (.new 1) State.reset = .next t) ∧
    (∃ t, exec (.feed 0 [0#8] 0 1 ts0) State.reset = .next t) ∧ (∃ t, exec (.discard 0) State.reset = .next t) ∧
    (∃ t, exec (.chunk [0#8] none) State.reset = .next t) :=
  ⟨⟨_, rfl⟩, ⟨_, rfl⟩, ⟨_, rfl⟩, ⟨_, rfl⟩⟩
theorem witness_TurnsOfDistinctInstancesCommute : ∃ t, runSteps 2 { State.reset with
    slots := [.live (instanceOf Framer.reset 0xF0#8), .live (instanceOf Framer.reset 0xF8#8)]
    host := [.turn 0, .turn 1] } = .next t := ⟨_, rfl⟩
theorem witness_FeedRefinesItsLoop : windowOf 1 3 [0x00#8, 0x90#8, 0x3C#8, 0x40#8, 0x00#8].length = some (1, 4) := by
  decide
theorem witness_TimestampsAreOpaque : ∀ bytes rest, State.reset.host ≠ .chunk bytes none :: rest := by
  intro _ _ h
  cases h
theorem witness_OpenFrameAbsorbs : (openFrame [0xF0#8]).st = .sysEx ∧ 0xF0#8 ∉ [0x90#8, 0xF8#8] ∧
    0xF7#8 ∉ [0x90#8, 0xF8#8] := by decide
theorem witness_LeadingDataDropped : Framer.reset.st = .header ∧ Framer.reset.rs = none ∧
    ∀ b ∈ [0x00#8, 0x7F#8], b < 0x80#8 := by decide
theorem witness_RunningStatusStandsForItsByte : (running 0x90#8).Inv ∧ (running 0x90#8).st = .header ∧
    (running 0x90#8).rs = some 0x90#8 ∧ 2 ≤ (lenOf 0x90#8).val ∧ (0x7F#8 : Byte) < 0x80#8 := by
  refine ⟨⟨fun _ => ⟨rfl, rfl⟩, ?_, ?_, ?_, ?_⟩, rfl, rfl, by decide, by decide⟩ <;>
    simp [running, Framer.reset]

end Sys2Proof.Tests
end

section
/-! PROOFS of the scope family: replacing timestamps commutes with everything the machine does
(00_scope.md R8), and the draws of NOW do not decrease (R12). -/

namespace Sys2Proof

/-! ## The clock -/

/-- A clock that goes back is held where it was, so one draw is never less than the one before. -/
theorem Config.now_le_now_succ (k : Nat) : (Config.now k).val ≤ (Config.now (k + 1)).val := by
  rw [Config.now]
  split
  · assumption
  · exact le_rfl

/-- Settles O31: every draw is at least the one before it. -/
theorem clockDrawsDoNotDecrease : Obligations.ClockDrawsDoNotDecrease :=
  fun _ _ hjk => monotone_nat_of_le_succ Config.now_le_now_succ hjk

/-! ## Instructions and their timestamps -/

/-- Replace the timestamp an instruction carries. -/
def Instr.retime (g : Timestamp → Timestamp) : Instr → Instr
  | .feed h bytes offset count ts => .feed h bytes offset count (g ts)
  | .chunk bytes ts => .chunk bytes (ts.map g)
  | k => k

/-- BYTE and STEP rows carry no timestamp. -/
theorem Instr.retime_of_row {k : Instr} (hk : k.byte?.isSome ∨ k.rowByte?.isSome)
    (g : Timestamp → Timestamp) : k.retime g = k := by
  cases k with
  | feed | chunk => simp [Instr.byte?, Instr.rowByte?] at hk
  | _ => rfl

/-- The decoder gives BYTE rows only (30_encoding.md R98). -/
theorem byte?_isSome_of_decode {bytes rest : List Byte} {k : Instr}
    (h : decode bytes = .ok (k, rest)) : k.byte?.isSome := by
  have hByte : ∀ b : Byte, (decodeByte b).byte?.isSome := by decide
  cases bytes with
  | nil => cases h
  | cons b =>
    cases h
    exact hByte b

end Sys2Proof

namespace Sys2Proof.Machine

/-! ## The transitions commute with the replacement -/

section
variable (g : Timestamp → Timestamp) (ts : Timestamp) (b : Byte) (f : Framer)

@[simp] theorem Framer.retime_st : (f.retime g).st = f.st := rfl
@[simp] theorem Framer.retime_rs : (f.retime g).rs = f.rs := rfl
@[simp] theorem Framer.retime_explen : (f.retime g).explen = f.explen := rfl
@[simp] theorem Framer.retime_mbuf : (f.retime g).mbuf = f.mbuf := rfl
@[simp] theorem Framer.retime_sxbuf : (f.retime g).sxbuf = f.sxbuf := rfl
@[simp] theorem Framer.retime_rsValid : (f.retime g).rsValid = f.rsValid := rfl

/-- An emission is the one place where a transition uses its timestamp: it copies it (R106). -/
theorem Framer.emit_retime (src : BufferName) :
    (f.retime g).emit src (g ts) = (f.emit src ts).retime g := by
  cases src <;> simp [Framer.emit, Framer.clear, Framer.buffer, Framer.retime, Emission.retime]

/-- An emission after which the parser state is `st`. -/
theorem Framer.emit_with_st_retime (src : BufferName) (st : ParserState) :
    { (f.retime g).emit src (g ts) with st := st } =
      Framer.retime g { f.emit src ts with st := st } := by
  rw [Framer.emit_retime]
  rfl

theorem Framer.hdrStatus_retime :
    (f.retime g).hdrStatus b (g ts) = (f.hdrStatus b ts).retime g := by
  unfold Framer.hdrStatus
  dsimp only
  split
  · rfl
  · split
    · exact Framer.emit_with_st_retime g ts
        { f with st := .params, rs := some b, explen := lenOf b, mbuf := [b] } .mbuf .header
    · rfl

theorem Framer.hdrDataRs_retime :
    (f.retime g).hdrDataRs b (g ts) = (f.hdrDataRs b ts).retime g := by
  unfold Framer.hdrDataRs
  rw [Framer.retime_rs]
  cases f.rs with
  | none => rfl
  | some r =>
    dsimp only
    split
    · rfl
    · split
      · exact Framer.emit_with_st_retime g ts
          { f with st := .params, rs := some r, explen := lenOf r, mbuf := [r, b] } .mbuf .header
      · rfl

theorem Framer.hdrSysexStart_retime : (f.retime g).hdrSysexStart = f.hdrSysexStart.retime g := rfl

theorem Framer.hdrDataNors_retime : (f.retime g).hdrDataNors = f.hdrDataNors.retime g := rfl

theorem Framer.sxAppend_retime : (f.retime g).sxAppend b = (f.sxAppend b).retime g := rfl

theorem Framer.sxRestart_retime : (f.retime g).sxRestart (g ts) = (f.sxRestart ts).retime g := by
  unfold Framer.sxRestart
  exact congrArg (fun f : Framer => { f with sxbuf := [0xF0#8], st := .sysEx })
    (Framer.emit_retime g ts { f with sxbuf := f.sxbuf ++ [0xF7#8] } .sxbuf)

theorem Framer.sxEox_retime : (f.retime g).sxEox (g ts) = (f.sxEox ts).retime g :=
  Framer.emit_with_st_retime g ts (f.sxAppend 0xF7#8) .sxbuf .header

/-- The last byte of a message emits it (R151). -/
theorem Framer.prmAppend_of_complete {b : Byte} {f : Framer}
    (h : (f.mbuf ++ [b]).length = f.explen.val) (ts : Timestamp) : f.prmAppend b ts =
      { Framer.emit .mbuf ts { f with mbuf := f.mbuf ++ [b] } with st := .header } := if_pos h

/-- Any byte before it only lengthens the message (R152). -/
theorem Framer.prmAppend_of_incomplete {b : Byte} {f : Framer}
    (h : (f.mbuf ++ [b]).length ≠ f.explen.val) (ts : Timestamp) :
    f.prmAppend b ts = { f with mbuf := f.mbuf ++ [b] } := if_neg h

theorem Framer.prmAppend_retime :
    (f.retime g).prmAppend b (g ts) = (f.prmAppend b ts).retime g := by
  by_cases h : (f.mbuf ++ [b]).length = f.explen.val
  · rw [Framer.prmAppend_of_complete h, Framer.prmAppend_of_complete (f := f.retime g) h]
    exact Framer.emit_with_st_retime g ts { f with mbuf := f.mbuf ++ [b] } .mbuf .header
  · rw [Framer.prmAppend_of_incomplete h, Framer.prmAppend_of_incomplete (f := f.retime g) h]
    rfl

/-- `STEP` commutes with the replacement, whichever transition it dispatches to. -/
theorem Framer.step_retime : (f.retime g).step b (g ts) = (f.step b ts).retime g := by
  unfold Framer.step
  rw [Framer.retime_st]
  split
  · unfold Framer.headerStep
    rw [Framer.retime_rsValid]
    split_ifs
    · exact Framer.hdrSysexStart_retime g f
    · exact Framer.hdrStatus_retime g ts b f
    · exact Framer.hdrDataRs_retime g ts b f
    · exact Framer.hdrDataNors_retime g f
  · unfold Framer.sysExStep
    split_ifs
    · exact Framer.sxRestart_retime g ts f
    · exact Framer.sxEox_retime g ts f
    · exact Framer.sxAppend_retime g b f
  · exact Framer.prmAppend_retime g ts b f

end

/-! ## The shared operations on the state -/

section
variable (g : Timestamp → Timestamp) (s : State)

@[simp] theorem State.retime_current : (s.retime g).current = s.current := rfl
@[simp] theorem State.retime_host : (s.retime g).host = s.host.map (HostEvent.retime g) := rfl
@[simp] theorem State.retime_slots : (s.retime g).slots = s.slots.map (Slot.retime g) := rfl
@[simp] theorem Instance.retime_call (i : Instance) :
    (i.retime g).call = i.call.map (FeedCall.retime g) := rfl

theorem State.live?_retime (h : Nat) :
    (s.retime g).live? h = (s.live? h).map (Instance.retime g) := by
  simp only [State.live?, State.retime_slots, List.getElem?_map]
  cases s.slots[h]? with
  | none => rfl
  | some slot => cases slot <;> rfl

theorem State.openCall?_retime :
    (s.retime g).openCall? = s.openCall?.map (Prod.map (Instance.retime g) (FeedCall.retime g)) := by
  simp only [State.openCall?, State.live?_retime, State.retime_current]
  cases s.live? s.current with
  | none => rfl
  | some i => simp [Function.comp_def]

theorem State.setLive_retime (h : Nat) (i : Instance) :
    (s.retime g).setLive h (i.retime g) = (s.setLive h i).retime g := by
  simp [State.setLive, State.retime, List.map_set, Slot.retime]

/-- A row whose condition and transition commute with the replacement commutes with it. -/
theorem State.onRow_retime {applies : Framer → Bool} {act : Timestamp → Framer → Framer}
    (hApplies : ∀ f, applies (f.retime g) = applies f)
    (hAct : ∀ ts f, act (g ts) (f.retime g) = (act ts f).retime g) :
    (s.retime g).onRow applies act = retimeOutcome g (s.onRow applies act) := by
  cases ho : s.openCall? with
  | none =>
    rw [State.onRow_of_no_call ho, State.onRow_of_no_call (by simp [State.openCall?_retime, ho])]
    rfl
  | some p =>
    obtain ⟨i, c⟩ := p
    have ho' : (s.retime g).openCall? = some (i.retime g, c.retime g) := by
      simp [State.openCall?_retime, ho]
    cases ha : applies i.framer with
    | false =>
      rw [State.onRow_of_not_applies ho ha,
        State.onRow_of_not_applies ho' ((hApplies i.framer).trans ha)]
      rfl
    | true =>
      rw [State.onRow_of_applies ho ha, State.onRow_of_applies ho' ((hApplies i.framer).trans ha)]
      have hFramer : act (c.retime g).ts (i.retime g).framer = (act c.ts i.framer).retime g :=
        hAct c.ts i.framer
      rw [hFramer]
      exact congrArg _ (State.setLive_retime g s _ { i with framer := act c.ts i.framer })

theorem State.advance_retime : (s.retime g).advance = s.advance.retime g := by
  simp only [State.advance, State.openCall?_retime]
  cases s.openCall? with
  | none => rfl
  | some p => exact State.setLive_retime g s _ { p.1 with call := some p.2.advance }

theorem State.endFeed_retime : (s.retime g).endFeed = s.endFeed.retime g := by
  simp only [State.endFeed, State.openCall?_retime]
  cases s.openCall? with
  | none => rfl
  | some p => exact State.setLive_retime g s _ { p.1 with call := none }

theorem advanceOutcome_retime (o : Host.Outcome State Fault Refusal) :
    advanceOutcome (retimeOutcome g o) = retimeOutcome g (advanceOutcome o) := by
  cases o with
  | next s => exact congrArg _ (State.advance_retime g s)
  | fault => rfl
  | refused => rfl

@[simp] theorem FeedCall.retime_atEnd (c : FeedCall) : (c.retime g).atEnd = c.atEnd := rfl
@[simp] theorem FeedCall.retime_fetchBytes (c : FeedCall) :
    (c.retime g).fetchBytes = c.fetchBytes := rfl

/-! ## The instructions -/

theorem execFeed_retime (h : Nat) (bytes : List Byte) (off cnt : Int) (ts : Timestamp) :
    execFeed h bytes off cnt (g ts) (s.retime g) =
      retimeOutcome g (execFeed h bytes off cnt ts s) := by
  have hStart : FeedCall.start? bytes off cnt (g ts) =
      (FeedCall.start? bytes off cnt ts).map (FeedCall.retime g) := by
    simp only [FeedCall.start?, Option.map_map]
    rfl
  simp only [execFeed, State.live?_retime]
  cases s.live? h with
  | none => rfl
  | some i =>
    simp only [Option.map_some, Instance.retime_call, Option.isSome_map, hStart]
    split
    · rfl
    · exact congrArg _
        (State.setLive_retime g s h { i with call := FeedCall.start? bytes off cnt ts })

theorem execDiscard_retime (h : Nat) :
    execDiscard h (s.retime g) = retimeOutcome g (execDiscard h s) := by
  simp only [execDiscard, State.live?_retime]
  cases s.live? h with
  | none => rfl
  | some i =>
    simp only [Option.map_some, Instance.retime_call, Option.isSome_map]
    split
    · rfl
    · simp [retimeOutcome, State.retime, List.map_set, Slot.retime, Instance.retime, Framer.retime]

theorem execNew_retime (sink : Nat) :
    execNew sink (s.retime g) = retimeOutcome g (execNew sink s) := by
  simp [execNew, retimeOutcome, State.retime, Slot.retime, Instance.retime, Instance.fresh,
    Framer.retime, Framer.reset]

/-- The chunks are cut by length alone and copy their timestamp (R163). -/
theorem chunkLoop_retime (size : Nat) (bytes : List Byte) (ts : Timestamp) (fuel i : Nat) :
    chunkLoop size bytes (g ts) fuel i = (chunkLoop size bytes ts fuel i).map (Packet.retime g) := by
  induction fuel generalizing i with
  | zero => rfl
  | succ fuel ih =>
    simp only [chunkLoop, ih]
    split <;> rfl

theorem execChunk_retime (bytes : List Byte) (ts : Timestamp) :
    execChunk bytes (some (g ts)) (s.retime g) = retimeOutcome g (execChunk bytes (some ts) s) := by
  simp [execChunk, chunksOf, chunkLoop_retime, retimeOutcome, State.retime]

/-- Every instruction commutes with the replacement, but for a CHUNK that draws NOW. -/
theorem exec_retime {k : Instr} (hk : ∀ bytes, k ≠ .chunk bytes none) :
    exec (k.retime g) (s.retime g) = retimeOutcome g (exec k s) := by
  cases hb : k.byte? with
  | some b =>
    rw [Instr.retime_of_row (.inl (by simp [hb])), exec_byte hb, exec_byte hb]
    exact State.onRow_retime g s (fun _ => rfl) fun ts f => Framer.step_retime g ts b f
  | none =>
    cases k with
    | hdrSysexStart =>
      exact State.onRow_retime g s (act := fun _ => Framer.hdrSysexStart) (fun _ => rfl)
        fun _ => Framer.hdrSysexStart_retime g
    | hdrStatus b => exact State.onRow_retime g s (fun _ => rfl) (Framer.hdrStatus_retime g · b)
    | hdrDataRs b => exact State.onRow_retime g s (fun _ => rfl) (Framer.hdrDataRs_retime g · b)
    | hdrDataNors =>
      exact State.onRow_retime g s (act := fun _ => Framer.hdrDataNors) (fun _ => rfl)
        fun _ => Framer.hdrDataNors_retime g
    | sxRestart => exact State.onRow_retime g s (fun _ => rfl) (Framer.sxRestart_retime g)
    | sxEox => exact State.onRow_retime g s (fun _ => rfl) (Framer.sxEox_retime g)
    | sxAppend b =>
      exact State.onRow_retime g s (act := fun _ => Framer.sxAppend b) (fun _ => rfl)
        fun _ => Framer.sxAppend_retime g b
    | prmAppend b => exact State.onRow_retime g s (fun _ => rfl) (Framer.prmAppend_retime g · b)
    | new sink => exact execNew_retime g s sink
    | feed h bytes off cnt ts => exact execFeed_retime g s h bytes off cnt ts
    | discard h => exact execDiscard_retime g s h
    | chunk bytes ts =>
      cases ts with
      | none => exact absurd rfl (hk bytes)
      | some ts => exact execChunk_retime g s bytes ts
    | _ => cases hb

/-- A BYTE or STEP row carries no timestamp of its own, so only the state's are replaced. -/
theorem exec_row_retime {k : Instr} (hk : k.byte?.isSome ∨ k.rowByte?.isSome) :
    exec k (s.retime g) = retimeOutcome g (exec k s) := by
  have hChunk : ∀ bytes, k ≠ .chunk bytes none := by
    rintro bytes rfl
    simp [Instr.byte?, Instr.rowByte?] at hk
  simpa only [Instr.retime_of_row hk] using exec_retime g s hChunk

/-! ## The step -/

/-- Replace the timestamps of what a step does. -/
def NextAction.retime (g : Timestamp → Timestamp) : NextAction → NextAction
  | .idle s => .idle (s.retime g)
  | .call k s => .call (k.retime g) (s.retime g)
  | .fetched k s => .fetched k (s.retime g)
  | .finish s => .finish (s.retime g)
  | .badFetch => .badFetch

theorem State.takeTurn_retime (h : Nat) :
    (s.retime g).takeTurn h = (s.takeTurn h).retime g := by
  have hCurrent : { s.retime g with current := h } = State.retime g { s with current := h } := rfl
  simp only [State.takeTurn, hCurrent, State.openCall?_retime]
  cases State.openCall? { s with current := h } with
  | none => rfl
  | some p =>
    by_cases hEnd : p.2.atEnd
    · simp [hEnd, NextAction.retime, State.endFeed_retime]
    · simp only [Option.map_some, Prod.map, FeedCall.retime_atEnd, FeedCall.retime_fetchBytes,
        hEnd, Bool.false_eq_true, if_false]
      cases decode p.2.fetchBytes <;> rfl

theorem State.firstFeeding_retime : (s.retime g).firstFeeding = s.firstFeeding := by
  have hFeeding : Slot.isFeeding ∘ Slot.retime g = Slot.isFeeding := by
    funext slot
    cases slot <;> simp [Slot.retime, Slot.isFeeding]
  simp [State.firstFeeding, List.findIdx?_map, hFeeding]

/-- What the machine does next is chosen without a look at a timestamp. -/
theorem State.nextAction_retime : (s.retime g).nextAction = s.nextAction.retime g := by
  unfold State.nextAction
  rw [State.retime_host, State.firstFeeding_retime]
  cases s.host with
  | nil =>
    cases s.firstFeeding with
    | none => rfl
    | some h => exact State.takeTurn_retime g s h
  | cons e rest =>
    cases e with
    | turn h => exact State.takeTurn_retime g { s with host := rest } h
    | _ => rfl

/-- What a step does draws no NOW: a call is no CHUNK without a timestamp, a window byte is the BYTE
row it decodes to. -/
def NextAction.ReadsNoClock : NextAction → Prop
  | .call k _ => ∀ bytes, k ≠ .chunk bytes none
  | .fetched k _ => k.byte?.isSome
  | _ => True

theorem State.takeTurn_readsNoClock (h : Nat) : (s.takeTurn h).ReadsNoClock := by
  unfold State.takeTurn
  dsimp only
  split
  · trivial
  · split
    · trivial
    · split
      · next hDecode => exact byte?_isSome_of_decode hDecode
      · trivial

theorem State.nextAction_readsNoClock (hHost : ∀ bytes rest, s.host ≠ .chunk bytes none :: rest) :
    s.nextAction.ReadsNoClock := by
  unfold State.nextAction
  cases hEvents : s.host with
  | nil =>
    cases s.firstFeeding with
    | none => trivial
    | some h => exact State.takeTurn_readsNoClock s h
  | cons e rest =>
    cases e with
    | turn h => exact State.takeTurn_readsNoClock _ h
    | chunk bytes ts =>
      intro bytes' hChunk
      cases hChunk
      exact hHost bytes rest hEvents
    | _ => exact nofun

/-- The step commutes with the replacement: what it does is chosen without a look at a timestamp, and
what it does commutes. -/
theorem step_retime (hHost : ∀ bytes rest, s.host ≠ .chunk bytes none :: rest) :
    step (s.retime g) = retimeOutcome g (step s) := by
  have hClock := State.nextAction_readsNoClock s hHost
  unfold step
  rw [State.nextAction_retime]
  cases hAction : s.nextAction with
  | call k t =>
    rw [hAction] at hClock
    exact exec_retime g t hClock
  | fetched k t =>
    rw [hAction] at hClock
    simp only [NextAction.retime, exec_row_retime g t (.inl hClock), advanceOutcome_retime]
  | _ => rfl

end

/-- Settles O47: the BYTE and STEP rows commute with the replacement, and so does the step. -/
theorem timestampsAreOpaque : Obligations.TimestampsAreOpaque :=
  fun g s => ⟨fun _ hk => exec_row_retime g s hk, step_retime g s⟩

end Sys2Proof.Machine
end

section
/-! PROOFS of the state family, the registers: what one STEP does to the registers of an instance, said
once, and what every STEP keeps (10_state.md R22, R30 to R33; 30_encoding.md R62). -/

namespace Sys2Proof.Machine

/-! ## Bytes -/

theorem isStatus_iff {b : Byte} : isStatus b = true ↔ 0x80#8 ≤ b := by simp [isStatus]

theorem isStatus_eq_false {b : Byte} : isStatus b = false ↔ b < 0x80#8 := by simp [isStatus]

/-- A data byte is not the byte that opens a frame. -/
theorem ne_sysExStart_of_data {b : Byte} (h : b < 0x80#8) : b ≠ 0xF0#8 := by
  rintro rfl
  exact absurd h (by decide)

/-- The decoder gives each byte its own BYTE row. -/
theorem byte?_decodeByte : ∀ b : Byte, (decodeByte b).byte? = some b := by decide

/-- A status byte with as many bytes as its length asks for is a message (30_encoding.md R62). -/
theorem IsMessage.of_length {r : Byte} {tail : List Byte}
    (h : (r :: tail).length = (lenOf r).val) : IsMessage (r :: tail) := by
  have hLt := (lenOf r).isLt
  match tail with
  | [] => exact .m1 r (Fin.ext h.symm)
  | [p] => exact .m2 r p (Fin.ext h.symm)
  | [p, q] => exact .m3 r p q (Fin.ext h.symm)
  | _ :: _ :: _ :: _ => simp only [List.length_cons] at h; omega

/-! ## One STEP -/

/-- What `STEP(b, ts)` makes of the registers `f`, one case per outcome of the transitions
(41_header_state.md R121 to R130, 42_sysex_state.md R141 to R143, 43_params_state.md R151, R152). -/
inductive Framer.StepCase (b : Byte) (ts : Timestamp) (f : Framer) : Framer → Prop
  /-- R121. -/
  | frameOpened (st : f.st = .header) (start : b = 0xF0#8) :
    StepCase b ts f { f with sxbuf := [0xF0#8], st := .sysEx }
  /-- R123. -/
  | statusDropped (st : f.st = .header) (status : 0x80#8 ≤ b) (ne : b ≠ 0xF0#8) (len : lenOf b = 0) :
    StepCase b ts f { f with rs := some b }
  /-- R124. -/
  | statusWhole (st : f.st = .header) (status : 0x80#8 ≤ b) (ne : b ≠ 0xF0#8) (len : lenOf b = 1) :
    StepCase b ts f { f with
      st := .header, rs := some b, mbuf := [], explen := lenOf b
      out := f.out ++ [{ msg := [b], ts := ts }] }
  /-- R125. -/
  | statusStarts (st : f.st = .header) (status : 0x80#8 ≤ b) (ne : b ≠ 0xF0#8)
    (len : 2 ≤ (lenOf b).val) :
    StepCase b ts f { f with rs := some b, mbuf := [b], explen := lenOf b, st := .params }
  /-- R127, R130. -/
  | dataDropped (st : f.st = .header) (data : b < 0x80#8)
    (noRoom : ∀ r, f.rs = some r → (lenOf r).val ≤ 1) : StepCase b ts f f
  /-- R128. -/
  | dataWhole (r : Byte) (st : f.st = .header) (data : b < 0x80#8) (rs : f.rs = some r)
    (len : lenOf r = 2) :
    StepCase b ts f { f with
      st := .header, rs := some r, mbuf := [], explen := lenOf r
      out := f.out ++ [{ msg := [r, b], ts := ts }] }
  /-- R129. -/
  | dataStarts (r : Byte) (st : f.st = .header) (data : b < 0x80#8) (rs : f.rs = some r)
    (len : lenOf r = 3) :
    StepCase b ts f { f with rs := some r, mbuf := [r, b], explen := lenOf r, st := .params }
  /-- R141. -/
  | frameRepaired (st : f.st = .sysEx) (start : b = 0xF0#8) :
    StepCase b ts f { f with
      st := .sysEx, sxbuf := [0xF0#8]
      out := f.out ++ [{ msg := f.sxbuf ++ [0xF7#8], ts := ts }] }
  /-- R143. -/
  | frameCompleted (st : f.st = .sysEx) (eox : b = 0xF7#8) :
    StepCase b ts f { f with
      st := .header, sxbuf := []
      out := f.out ++ [{ msg := f.sxbuf ++ [0xF7#8], ts := ts }] }
  /-- R142. -/
  | frameAppended (st : f.st = .sysEx) (notStart : b ≠ 0xF0#8) (notEnd : b ≠ 0xF7#8) :
    StepCase b ts f { f with sxbuf := f.sxbuf ++ [b] }
  /-- R151. -/
  | paramsCompleted (st : f.st = .params) (len : (f.mbuf ++ [b]).length = f.explen.val) :
    StepCase b ts f { f with
      st := .header, mbuf := []
      out := f.out ++ [{ msg := f.mbuf ++ [b], ts := ts }] }
  /-- R152. -/
  | paramsAppended (st : f.st = .params) (len : (f.mbuf ++ [b]).length ≠ f.explen.val) :
    StepCase b ts f { f with mbuf := f.mbuf ++ [b] }

section
variable {b : Byte} {f : Framer} (ts : Timestamp)

theorem Framer.hdrStatus_case (st : f.st = .header) (status : 0x80#8 ≤ b) (ne : b ≠ 0xF0#8) :
    f.StepCase b ts (f.hdrStatus b ts) := by
  unfold Framer.hdrStatus
  dsimp only
  split_ifs with len0 len1
  · exact .statusDropped st status ne len0
  · exact .statusWhole st status ne len1
  · exact .statusStarts st status ne (by omega)

theorem Framer.hdrDataRs_case {r : Byte} (st : f.st = .header) (data : b < 0x80#8)
    (rs : f.rs = some r) : f.StepCase b ts (f.hdrDataRs b ts) := by
  unfold Framer.hdrDataRs
  simp only [rs]
  split_ifs with noRoom len2
  · exact .dataDropped st data fun r' rs' => by cases rs.symm.trans rs'; exact noRoom
  · exact .dataWhole r st data rs len2
  · exact .dataStarts r st data rs (by omega)

theorem Framer.headerStep_case (st : f.st = .header) : f.StepCase b ts (f.headerStep b ts) := by
  unfold Framer.headerStep
  split_ifs with start status valid
  · exact .frameOpened st start
  · exact Framer.hdrStatus_case ts st (isStatus_iff.mp status) start
  · obtain ⟨r, rs⟩ := Option.isSome_iff_exists.mp valid
    exact Framer.hdrDataRs_case ts st (isStatus_eq_false.mp (by simpa using status)) rs
  · have rs : f.rs = none := by simpa [Framer.rsValid] using valid
    exact .dataDropped st (isStatus_eq_false.mp (by simpa using status)) (by simp [rs])

theorem Framer.sysExStep_case (st : f.st = .sysEx) : f.StepCase b ts (f.sysExStep b ts) := by
  unfold Framer.sysExStep
  split_ifs with start eox
  · exact .frameRepaired st start
  · exact .frameCompleted st eox
  · exact .frameAppended st start eox

theorem Framer.prmAppend_case (st : f.st = .params) : f.StepCase b ts (f.prmAppend b ts) := by
  by_cases len : (f.mbuf ++ [b]).length = f.explen.val
  · rw [Framer.prmAppend_of_complete len]
    exact .paramsCompleted st len
  · rw [Framer.prmAppend_of_incomplete len]
    exact .paramsAppended st len

end

/-- Everything a STEP can do to the registers, in every state of them. -/
theorem Framer.step_case (b : Byte) (ts : Timestamp) (f : Framer) : f.StepCase b ts (f.step b ts) := by
  unfold Framer.step
  split
  · next st => exact Framer.headerStep_case ts st
  · next st => exact Framer.sysExStep_case ts st
  · next st => exact Framer.prmAppend_case ts st

/-! ## What every STEP keeps -/

namespace Framer.StepCase

variable {b : Byte} {ts : Timestamp} {f g : Framer}

/-- The running status after a STEP (R22): a status byte other than 0xF0 met in Header writes it. -/
theorem rs_eq (h : f.StepCase b ts g) :
    g.rs = if f.st = .header ∧ 0x80#8 ≤ b ∧ b ≠ 0xF0#8 then some b else f.rs := by
  cases h with
  | frameOpened st start => simp [start]
  | statusDropped st status ne => simp [st, status, ne]
  | statusWhole st status ne => simp [st, status, ne]
  | statusStarts st status ne => simp [st, status, ne]
  | dataDropped st data => simp [BitVec.not_le.mpr data]
  | dataWhole r st data rs => simp [BitVec.not_le.mpr data, rs]
  | dataStarts r st data rs => simp [BitVec.not_le.mpr data, rs]
  | frameRepaired st => simp [st]
  | frameCompleted st => simp [st]
  | frameAppended st => simp [st]
  | paramsCompleted st => simp [st]
  | paramsAppended st => simp [st]

/-- No STEP takes the registers back to no running status yet (R36). -/
theorem rsValid (h : f.StepCase b ts g) (valid : f.rsValid = true) : g.rsValid = true := by
  unfold Framer.rsValid at *
  rw [h.rs_eq]
  split_ifs
  · rfl
  · exact valid

/-- A STEP adds to what was emitted and takes nothing back (20_memory.md R54). -/
theorem out_prefix (h : f.StepCase b ts g) : f.out <+: g.out := by
  cases h with
  | statusWhole | dataWhole | frameRepaired | frameCompleted | paramsCompleted =>
    exact List.prefix_append _ _
  | _ => exact List.prefix_rfl

/-- In SysEx a STEP writes the SysEx buffer alone (R145). -/
theorem frame_of_sysEx (h : f.StepCase b ts g) (st : f.st = .sysEx) :
    g.rs = f.rs ∧ g.explen = f.explen ∧ g.mbuf = f.mbuf := by
  cases h with
  | frameRepaired | frameCompleted | frameAppended => exact ⟨rfl, rfl, rfl⟩
  | _ => simp_all

/-- In Params a STEP writes the message buffer alone (R154). -/
theorem frame_of_params (h : f.StepCase b ts g) (st : f.st = .params) :
    g.rs = f.rs ∧ g.explen = f.explen ∧ g.sxbuf = f.sxbuf := by
  cases h with
  | paramsCompleted | paramsAppended => exact ⟨rfl, rfl, rfl⟩
  | _ => simp_all

end Framer.StepCase

/-! ## R30 to R33 and the message formats -/

/-- Registers right after NEW meet the invariants. -/
theorem Framer.inv_reset : Framer.reset.Inv where
  header _ := ⟨rfl, rfl⟩
  params st := nomatch st
  sysEx st := nomatch st
  running _ rs := nomatch rs
  emitted _ he := nomatch he

/-- Whatever was emitted stays whole when a whole message is added. -/
theorem isMessage_of_mem_append {out : List Emission} {msg : List Byte} {ts : Timestamp}
    (hOut : ∀ e ∈ out, IsMessage e.msg) (hMsg : IsMessage msg) :
    ∀ e ∈ out ++ [{ msg := msg, ts := ts }], IsMessage e.msg := by
  intro e he
  rcases List.mem_append.mp he with he | he
  · exact hOut e he
  · rw [List.mem_singleton.mp he]
    exact hMsg

/-- A STEP from registers that meet the invariants leaves registers whose running status is a status
byte other than 0xF0 (R33). -/
theorem Framer.Inv.running_step {b : Byte} {ts : Timestamp} {f g : Framer} (hInv : f.Inv)
    (h : f.StepCase b ts g) : ∀ r, g.rs = some r → 0x80#8 ≤ r ∧ r ≠ 0xF0#8 := by
  intro r rs
  rw [h.rs_eq] at rs
  split_ifs at rs with writes
  · cases rs
    exact writes.2
  · exact hInv.running r rs

/-- The open frame, closed by 0xF7, is a message of format SX (R62). -/
theorem Framer.Inv.isMessage_frame {f : Framer} (hInv : f.Inv) (st : f.st = .sysEx) :
    IsMessage (f.sxbuf ++ [0xF7#8]) := by
  obtain ⟨tail, hBuf, noStart, noEnd, -⟩ := hInv.sysEx st
  rw [hBuf]
  exact .sx tail noStart noEnd

/-- The message under way, brought to its expected length by any byte, is a message (R62, R151). -/
theorem Framer.Inv.isMessage_params {b : Byte} {f : Framer} (hInv : f.Inv) (st : f.st = .params)
    (len : (f.mbuf ++ [b]).length = f.explen.val) : IsMessage (f.mbuf ++ [b]) := by
  obtain ⟨r, tail, -, hBuf, hLen, -⟩ := hInv.params st
  rw [hBuf, hLen] at len
  rw [hBuf]
  exact .of_length len

/-- Every STEP keeps R30 to R33 and emits whole messages only. -/
theorem Framer.Inv.step {b : Byte} {ts : Timestamp} {f g : Framer} (hInv : f.Inv)
    (h : f.StepCase b ts g) : g.Inv := by
  have running := hInv.running_step h
  cases h with
  | frameOpened st start =>
    obtain ⟨hm, -⟩ := hInv.header st
    exact ⟨nofun, nofun, fun _ => ⟨[], by simp [hm]⟩, running, hInv.emitted⟩
  | statusDropped st =>
    exact ⟨hInv.header, by simp [st], by simp [st], running, hInv.emitted⟩
  | statusWhole st status ne len =>
    obtain ⟨-, hs⟩ := hInv.header st
    exact ⟨fun _ => ⟨rfl, hs⟩, nofun, nofun, running,
      isMessage_of_mem_append hInv.emitted (.m1 b len)⟩
  | statusStarts st status ne len =>
    obtain ⟨-, hs⟩ := hInv.header st
    exact ⟨nofun, fun _ => ⟨b, [], rfl, rfl, rfl, len, len, hs⟩, nofun, running, hInv.emitted⟩
  | dataDropped => exact hInv
  | dataWhole r st data rs len =>
    obtain ⟨-, hs⟩ := hInv.header st
    exact ⟨fun _ => ⟨rfl, hs⟩, nofun, nofun, running,
      isMessage_of_mem_append hInv.emitted (.m2 r b len)⟩
  | dataStarts r st data rs len =>
    obtain ⟨-, hs⟩ := hInv.header st
    exact ⟨nofun, fun _ => ⟨r, [b], rfl, rfl, rfl, by simp [len], by simp [len], hs⟩, nofun, running,
      hInv.emitted⟩
  | frameRepaired st =>
    obtain ⟨-, -, -, -, hm⟩ := hInv.sysEx st
    exact ⟨nofun, nofun, fun _ => ⟨[], by simp [hm]⟩, running,
      isMessage_of_mem_append hInv.emitted (hInv.isMessage_frame st)⟩
  | frameCompleted st =>
    obtain ⟨-, -, -, -, hm⟩ := hInv.sysEx st
    exact ⟨fun _ => ⟨hm, rfl⟩, nofun, nofun, running,
      isMessage_of_mem_append hInv.emitted (hInv.isMessage_frame st)⟩
  | frameAppended st notStart notEnd =>
    obtain ⟨tail, hBuf, noStart, noEnd, hm⟩ := hInv.sysEx st
    exact ⟨by simp [st], by simp [st], fun _ => ⟨tail ++ [b], by
      simp [hBuf, noStart, noEnd, hm, notStart.symm, notEnd.symm]⟩, running, hInv.emitted⟩
  | paramsCompleted st len =>
    obtain ⟨-, -, -, -, -, -, -, hs⟩ := hInv.params st
    exact ⟨fun _ => ⟨rfl, hs⟩, nofun, nofun, running,
      isMessage_of_mem_append hInv.emitted (hInv.isMessage_params st len)⟩
  | paramsAppended st len =>
    obtain ⟨r, tail, rs, hBuf, hLen, two, lt, hs⟩ := hInv.params st
    have lt' : (f.mbuf ++ [b]).length < f.explen.val := by
      rw [List.length_append, List.length_singleton] at *
      omega
    exact ⟨by simp [st], fun _ => ⟨r, tail ++ [b], rs, by simp [hBuf], hLen, two, lt', hs⟩,
      by simp [st], running, hInv.emitted⟩

end Sys2Proof.Machine
end

section
/-! PROOFS of the state family, the stream: a STEP goes on accounting for every byte stepped on the
registers (70_reset_and_hazards.md R215). -/

namespace Sys2Proof.Machine

/-! ## Pieces, when the stream goes on -/

/-- What a piece may be looks at the next byte only, so it stays when more bytes follow. -/
theorem Piece.ok_append {p : Piece} {rs : Option Byte} {rest : List Byte} (more : List Byte)
    (h : p.ok rs rest) : p.ok rs (rest ++ more) := by
  cases p with
  | dropped b => exact h
  | message msg carried synthetic =>
    obtain ⟨whole, hCarried, hSynthetic⟩ := h
    refine ⟨whole, hCarried, fun hs => ?_⟩
    obtain ⟨hMsg, hRest⟩ := hSynthetic hs
    exact ⟨hMsg, by rw [List.head?_append, hRest]; rfl⟩

theorem piecesOk_append_rest {rest : List Byte} (more : List Byte) {rs : Option Byte}
    {ps : List Piece} (h : piecesOk rest rs ps) : piecesOk (rest ++ more) rs ps := by
  induction ps generalizing rs with
  | nil => trivial
  | cons p ps ih =>
    obtain ⟨hp, hps⟩ := h
    refine ⟨?_, ih hps⟩
    rw [← List.append_assoc]
    exact Piece.ok_append more hp

/-- One more piece at the end: the pieces before it see its bytes, and it sees the running status they
give. -/
theorem piecesOk_concat {rest : List Byte} {rs : Option Byte} {ps : List Piece} {p : Piece}
    (hps : piecesOk (p.consumed ++ rest) rs ps) (hp : p.ok (ps.foldl Piece.running rs) rest) :
    piecesOk rest rs (ps ++ [p]) := by
  induction ps generalizing rs with
  | nil => exact ⟨by simpa using hp, trivial⟩
  | cons q ps ih =>
    obtain ⟨hq, hps⟩ := hps
    exact ⟨by simpa using hq, ih hps hp⟩

/-! ## The account of a stream -/

/-- The pieces and the bytes still pending account for `stream`, and the messages among the pieces are
those of `out`: the part of `Framer.Accounts` that does not speak of the running status. -/
structure Ledger (pieces : List Piece) (pending stream : List Byte) (out : List Emission) : Prop where
  /-- The stream is the pieces, then what is pending. -/
  bytes : pieces.flatMap Piece.consumed ++ pending = stream
  /-- The messages of the pieces are what was emitted. -/
  messages : pieces.filterMap Piece.msg? = out.map Emission.msg
  /-- Every piece is what the rules allow. -/
  ok : piecesOk pending none pieces

theorem Framer.accounts_iff {f : Framer} {stream : List Byte} : f.Accounts stream ↔
    ∃ pieces carried, Ledger pieces (f.pending carried) stream f.out ∧
      (f.rs = if f.st = .params ∧ carried = false then f.mbuf.head?
        else pieces.foldl Piece.running none) ∧
      (carried = true → f.st = .params ∧ ∃ r d, f.mbuf = [r, d] ∧ f.rs = some r ∧ d < 0x80#8) :=
  ⟨fun ⟨ps, carried, hBytes, hMsgs, hOk, hStatus⟩ => ⟨ps, carried, ⟨hBytes, hMsgs, hOk⟩, hStatus⟩,
    fun ⟨ps, carried, ⟨hBytes, hMsgs, hOk⟩, hStatus⟩ => ⟨ps, carried, hBytes, hMsgs, hOk, hStatus⟩⟩

namespace Ledger

variable {pieces : List Piece} {pending pending' stream : List Byte} {out : List Emission} {b : Byte}

/-- A byte that completes nothing is pending. -/
theorem wait (h : Ledger pieces pending stream out) :
    Ledger pieces (pending ++ [b]) (stream ++ [b]) out where
  bytes := by rw [← List.append_assoc, h.bytes]
  messages := h.messages
  ok := piecesOk_append_rest [b] h.ok

/-- A byte that completes a piece: the pending bytes and it are that piece and what is pending now. -/
theorem concat (h : Ledger pieces pending stream out) {p : Piece}
    (hBytes : p.consumed ++ pending' = pending ++ [b]) {es : List Emission}
    (hMsgs : p.msg?.toList = es.map Emission.msg)
    (hOk : p.ok (pieces.foldl Piece.running none) pending') :
    Ledger (pieces ++ [p]) pending' (stream ++ [b]) (out ++ es) where
  bytes := by
    rw [List.flatMap_append, List.flatMap_singleton, List.append_assoc, hBytes, ← List.append_assoc,
      h.bytes]
  messages := by
    rw [List.filterMap_append, h.messages, List.map_append, ← hMsgs]
    cases hp : p.msg? <;> simp [hp]
  ok := piecesOk_concat (by rw [hBytes]; exact piecesOk_append_rest [b] h.ok) hOk

/-- A byte that is dropped. -/
theorem drop (h : Ledger pieces [] stream out)
    (hOk : (Piece.dropped b).ok (pieces.foldl Piece.running none) []) :
    Ledger (pieces ++ [.dropped b]) [] (stream ++ [b]) out := by
  simpa using h.concat (p := .dropped b) (pending' := []) rfl (es := []) rfl hOk

/-- A byte that completes a message. -/
theorem emit (h : Ledger pieces pending stream out) {msg : List Byte} {carried synthetic : Bool}
    (ts : Timestamp)
    (hBytes : (Piece.message msg carried synthetic).consumed ++ pending' = pending ++ [b])
    (hOk : (Piece.message msg carried synthetic).ok (pieces.foldl Piece.running none) pending') :
    Ledger (pieces ++ [.message msg carried synthetic]) pending' (stream ++ [b])
      (out ++ [{ msg := msg, ts := ts }]) :=
  h.concat hBytes rfl hOk

end Ledger

/-- A message that was fed whole is what the rules allow. -/
theorem Piece.ok_fed {msg : List Byte} (hMsg : IsMessage msg) (rs : Option Byte) (rest : List Byte) :
    (Piece.message msg false false).ok rs rest := ⟨hMsg, nofun, nofun⟩

/-- So is a message under running status: its status byte is that one, a data byte follows (R63). -/
theorem Piece.ok_carried {r d : Byte} {tail : List Byte} (hMsg : IsMessage (r :: d :: tail))
    (hd : d < 0x80#8) (rest : List Byte) :
    (Piece.message (r :: d :: tail) true false).ok (some r) rest :=
  ⟨hMsg, fun _ => ⟨rfl, r, d, tail, rfl, rfl, hd⟩, nofun⟩

/-! ## A STEP -/

section
variable {b : Byte} {ts : Timestamp} {f g : Framer} {stream : List Byte}

/-- In Header nothing is pending: a byte is a piece of its own or the first of a new one. -/
theorem Framer.Accounts.step_header (hAcc : f.Accounts stream) (st : f.st = .header)
    (h : f.StepCase b ts g) : g.Accounts (stream ++ [b]) := by
  obtain ⟨ps, carried, hLedger, hRs, hCarried⟩ := Framer.accounts_iff.mp hAcc
  have : carried = false := by simpa [st] using hCarried
  subst this
  simp only [Framer.pending, st, reduceCtorEq, false_and, if_false] at hLedger hRs
  rw [Framer.accounts_iff]
  cases h with
  | frameOpened _ start =>
    subst start
    exact ⟨ps, false, hLedger.wait, by simpa using hRs, nofun⟩
  | statusDropped _ status ne len =>
    refine ⟨ps ++ [.dropped b], false, ?_, ?_, nofun⟩
    · simpa [Framer.pending, st] using hLedger.drop (.inr ⟨status, ne, len⟩)
    · simp [st, Piece.running, status]
  | statusWhole _ status ne len =>
    refine ⟨ps ++ [.message [b] false false], false, ?_, ?_, nofun⟩
    · exact hLedger.emit ts rfl (Piece.ok_fed (.m1 b len) _ _)
    · simp [Piece.running, ne]
  | statusStarts => exact ⟨ps, false, hLedger.wait, rfl, nofun⟩
  | dataDropped _ data noRoom =>
    refine ⟨ps ++ [.dropped b], false, ?_, ?_, nofun⟩
    · simpa [Framer.pending, st] using hLedger.drop (.inl ⟨data, hRs ▸ noRoom⟩)
    · simp [st, Piece.running, BitVec.not_le.mpr data, hRs]
  | dataWhole r _ data rs len =>
    refine ⟨ps ++ [.message [r, b] true false], false, ?_, ?_, nofun⟩
    · exact hLedger.emit ts rfl (by rw [← hRs, rs]; exact Piece.ok_carried (.m2 r b len) data _)
    · simp [Piece.running, ← hRs, rs]
  | dataStarts r _ data rs =>
    refine ⟨ps, true, hLedger.wait, ?_, fun _ => ⟨rfl, r, b, rfl, rfl, data⟩⟩
    simp [← hRs, rs]
  | _ => simp_all

/-- In SysEx the open frame is pending, which 0xF7 ends and another 0xF0 repairs. -/
theorem Framer.Accounts.step_sysEx (hAcc : f.Accounts stream) (hInv : f.Inv) (st : f.st = .sysEx)
    (h : f.StepCase b ts g) : g.Accounts (stream ++ [b]) := by
  obtain ⟨ps, carried, hLedger, hRs, hCarried⟩ := Framer.accounts_iff.mp hAcc
  have : carried = false := by simpa [st] using hCarried
  subst this
  simp only [Framer.pending, st, reduceCtorEq, false_and, if_false] at hLedger hRs
  have whole := hInv.isMessage_frame st
  have first : (f.sxbuf ++ [0xF7#8]).head? = some 0xF0#8 := by
    obtain ⟨tail, hBuf, -⟩ := hInv.sysEx st
    simp [hBuf]
  rw [Framer.accounts_iff]
  cases h with
  | frameRepaired _ start =>
    subst start
    refine ⟨ps ++ [.message (f.sxbuf ++ [0xF7#8]) false true], false, ?_, ?_, nofun⟩
    · exact hLedger.emit ts (by simp [Piece.consumed, Framer.pending])
        ⟨whole, nofun, fun _ => ⟨first, rfl⟩⟩
    · simpa [Piece.running, first] using hRs
  | frameCompleted _ eox =>
    subst eox
    refine ⟨ps ++ [.message (f.sxbuf ++ [0xF7#8]) false false], false, ?_, ?_, nofun⟩
    · exact hLedger.emit ts (by simp [Piece.consumed, Framer.pending]) (Piece.ok_fed whole _ _)
    · simpa [Piece.running, first] using hRs
  | frameAppended =>
    refine ⟨ps, false, ?_, ?_, nofun⟩
    · simpa [Framer.pending, st] using hLedger.wait
    · simpa [st] using hRs
  | _ => simp_all

/-- The status byte of the message under way was fed. -/
theorem Framer.Accounts.step_params_fed {ps : List Piece} (hInv : f.Inv) (st : f.st = .params)
    (hLedger : Ledger ps f.mbuf stream f.out) (hRs : f.rs = f.mbuf.head?)
    (h : f.StepCase b ts g) : g.Accounts (stream ++ [b]) := by
  obtain ⟨r, tail, rs, hBuf, -⟩ := hInv.params st
  rw [Framer.accounts_iff]
  cases h with
  | paramsCompleted _ len =>
    refine ⟨ps ++ [.message (f.mbuf ++ [b]) false false], false, ?_, ?_, nofun⟩
    · exact hLedger.emit ts (by simp [Piece.consumed, Framer.pending])
        (Piece.ok_fed (hInv.isMessage_params st len) _ _)
    · simp [Piece.running, hBuf, rs, (hInv.running r rs).2]
  | paramsAppended =>
    refine ⟨ps, false, ?_, ?_, nofun⟩
    · simpa [Framer.pending, st] using hLedger.wait
    · simp [st, hRs, hBuf]
  | _ => simp_all

/-- The status byte of the message under way was carried over: the byte is the third of three. -/
theorem Framer.Accounts.step_params_carried {ps : List Piece} {r d : Byte} (hInv : f.Inv)
    (st : f.st = .params) (hBuf : f.mbuf = [r, d]) (rs : f.rs = some r) (data : d < 0x80#8)
    (hLedger : Ledger ps [d] stream f.out) (hRs : f.rs = ps.foldl Piece.running none)
    (h : f.StepCase b ts g) : g.Accounts (stream ++ [b]) := by
  rw [Framer.accounts_iff]
  cases h with
  | paramsCompleted _ len =>
    have whole := hInv.isMessage_params st len
    simp only [hBuf, List.cons_append, List.nil_append] at whole ⊢
    refine ⟨ps ++ [.message [r, d, b] true false], false, ?_, ?_, nofun⟩
    · exact hLedger.emit ts rfl (by rw [← hRs, rs]; exact Piece.ok_carried whole data _)
    · simp [Piece.running, ← hRs]
  | paramsAppended _ len =>
    obtain ⟨-, -, -, -, -, -, lt, -⟩ := hInv.params st
    simp only [hBuf, List.length_append, List.length_cons, List.length_nil] at len lt
    omega
  | _ => simp_all

/-- In Params the message under way is pending, its status byte fed or carried over. -/
theorem Framer.Accounts.step_params (hAcc : f.Accounts stream) (hInv : f.Inv) (st : f.st = .params)
    (h : f.StepCase b ts g) : g.Accounts (stream ++ [b]) := by
  obtain ⟨ps, carried, hLedger, hRs, hCarried⟩ := Framer.accounts_iff.mp hAcc
  cases carried with
  | false =>
    simp only [Framer.pending, st, and_self, if_true, Bool.false_eq_true, if_false] at hLedger hRs
    exact Framer.Accounts.step_params_fed hInv st hLedger hRs h
  | true =>
    obtain ⟨-, r, d, hBuf, rs, data⟩ := hCarried rfl
    simp only [Framer.pending, st, hBuf, List.tail_cons, Bool.true_eq_false, and_false, if_true,
      if_false] at hLedger hRs
    exact Framer.Accounts.step_params_carried hInv st hBuf rs data hLedger hRs h

/-- A STEP from registers that meet the invariants accounts for one byte more. -/
theorem Framer.Accounts.step (hAcc : f.Accounts stream) (hInv : f.Inv) (h : f.StepCase b ts g) :
    g.Accounts (stream ++ [b]) := by
  cases st : f.st with
  | header => exact hAcc.step_header st h
  | sysEx => exact hAcc.step_sysEx hInv st h
  | params => exact hAcc.step_params hInv st h

/-- So does the loop over a window: it accounts for all of its bytes, and keeps the invariants. -/
theorem Framer.Accounts.stepAll (bs : List Byte) (ts : Timestamp) (hInv : f.Inv)
    (hAcc : f.Accounts stream) :
    (f.stepAll bs ts).Inv ∧ (f.stepAll bs ts).Accounts (stream ++ bs) := by
  induction bs generalizing f stream with
  | nil => exact ⟨hInv, by simpa [Framer.stepAll] using hAcc⟩
  | cons b bs ih =>
    have hCase := f.step_case b ts
    simpa [Framer.stepAll] using ih (hInv.step hCase) (hAcc.step hInv hCase)

end

/-- Registers right after NEW account for the empty stream. -/
theorem Framer.accounts_reset : Framer.reset.Accounts [] :=
  Framer.accounts_iff.mpr ⟨[], false, ⟨rfl, rfl, trivial⟩, rfl, nofun⟩

/-- Settles O54: no piece, nothing pending, nothing emitted, no running status. -/
theorem freshInstanceAccountsForNothing : Obligations.FreshInstanceAccountsForNothing :=
  fun _ => Framer.accounts_reset

end Sys2Proof.Machine
end

section
/-! PROOFS of the state family, the machine: what a step does to one place in the order of creation,
said once with the byte it presents there, and what follows for every step (10_state.md R22, R27, R30
to R33; 20_memory.md R54; 70_reset_and_hazards.md R215). -/

namespace Sys2Proof.Machine

/-! ## Places -/

theorem State.slots_setLive_self {s : State} {h : Nat} {j : Instance} (hj : s.live? h = some j)
    (i : Instance) : (s.setLive h i).slots[h]? = some (.live i) :=
  State.live?_eq_some.mp (State.live?_setLive_self hj i)

theorem State.slots_setLive_ne {s : State} {h k : Nat} (hk : k ≠ h) (i : Instance) :
    (s.setLive h i).slots[k]? = s.slots[k]? :=
  List.getElem?_set_ne hk.symm

/-! ## What a step does next -/

/-- The turn of instance `h` does nothing, steps a window byte, ends a FEED or reads outside. -/
inductive TurnCase (s : State) (h : Nat) : NextAction → Prop
  /-- No FEED is in progress. -/
  | idle : TurnCase s h (.idle { s with current := h })
  /-- A window byte. -/
  | byte (i : Instance) (c : FeedCall) (b : Byte) (live : s.live? h = some i) (call : i.call = some c)
    (inWindow : c.cursor < c.stop) : TurnCase s h (.fetched (decodeByte b) { s with current := h })
  /-- The return. -/
  | finish (i : Instance) (live : s.live? h = some i) :
    TurnCase s h (.finish (State.setLive { s with current := h } h { i with call := none }))
  /-- The cursor stands outside the buffer. -/
  | outside : TurnCase s h .badFetch

theorem State.takeTurn_case (s : State) (h : Nat) : TurnCase s h (s.takeTurn h) := by
  by_cases hIdle : ∀ i, s.live? h = some i → i.call = none
  · rw [State.takeTurn_idle hIdle]
    exact .idle
  · push Not at hIdle
    obtain ⟨i, live, hCall⟩ := hIdle
    obtain ⟨c, call⟩ := Option.ne_none_iff_exists'.mp hCall
    by_cases inWindow : c.cursor < c.stop
    · cases read : c.data.read c.cursor with
      | none =>
        have ho : State.openCall? { s with current := h } = some (i, c) :=
          State.openCall?_eq_some.mpr ⟨live, call⟩
        have : s.takeTurn h = .badFetch := by
          simp [State.takeTurn, ho, FeedCall.atEnd, Nat.not_le.mpr inWindow, FeedCall.fetchBytes,
            read, decode]
        rw [this]
        exact .outside
      | some b =>
        rw [State.takeTurn_fetched live call inWindow read]
        exact .byte i c b live call inWindow
    · rw [State.takeTurn_finish live call (Nat.not_lt.mp inWindow)]
      exact .finish i live

/-- A step does nothing, gives an instance a turn, or makes one of the four calls. -/
inductive ActionCase (s : State) : NextAction → Prop
  /-- No event, and no FEED in progress. -/
  | idle : ActionCase s (.idle s)
  /-- A turn, by the environment's event or by default. -/
  | turn (es : List HostEvent) (h : Nat) : ActionCase s (State.takeTurn { s with host := es } h)
  /-- NEW, FEED, DISCARD or CHUNK, the rows without a byte. -/
  | call (es : List HostEvent) (k : Instr) (isCall : k.byte? = none ∧ k.rowByte? = none) :
    ActionCase s (.call k { s with host := es })

theorem State.nextAction_case (s : State) : ActionCase s s.nextAction := by
  unfold State.nextAction
  cases s.host with
  | nil =>
    cases s.firstFeeding with
    | none => exact .idle
    | some h => exact .turn s.host h
  | cons e rest =>
    cases e with
    | turn h => exact .turn rest h
    | new sink => exact .call rest _ ⟨rfl, rfl⟩
    | feed h data offset count ts => exact .call rest _ ⟨rfl, rfl⟩
    | discard h => exact .call rest _ ⟨rfl, rfl⟩
    | chunk bytes ts => exact .call rest _ ⟨rfl, rfl⟩

/-! ## The FEED in progress -/

/-- A FEED is opened with its window inside its buffer (40_feed_command.md R102). -/
theorem FeedCall.inv_start {data : List Byte} {off cnt : Int} {ts : Timestamp} {c : FeedCall}
    (h : FeedCall.start? data off cnt ts = some c) : c.Inv := by
  refine ⟨FeedCall.start?_wf h, ?_⟩
  obtain ⟨w, hw, rfl⟩ := Option.map_eq_some_iff.mp h
  obtain ⟨-, -, -, lt, le⟩ := windowOf_some hw
  exact ⟨lt.le, by simpa using le⟩

/-- The move past a byte of the window keeps the cursor inside it or puts it at its end. -/
theorem FeedCall.Inv.advance {c : FeedCall} (h : c.Inv) (inWindow : c.cursor < c.stop) :
    c.advance.Inv := by
  obtain ⟨wf, -, le⟩ := h
  exact ⟨wf, inWindow, le⟩

/-! ## What a step does to one place -/

/-- What a step from `s` to `t` did to the place `h`, and the byte it presented there, which `StepCase`
does not say. -/
inductive SlotCase (s t : State) (h : Nat) : Prop
  /-- Nothing. -/
  | same (quiet : s.presented h = []) (eq : t.slots[h]? = s.slots[h]?)
  /-- One STEP, and the move past the byte. -/
  | byte (i : Instance) (c : FeedCall) (b : Byte) (live : s.live? h = some i) (call : i.call = some c)
    (inWindow : c.cursor < c.stop) (presented : s.presented h = [b])
    (eq : t.slots[h]? = some (.live
      { i with framer := i.framer.step b c.ts, call := some c.advance }))
  /-- A FEED was opened, or returned. -/
  | callSet (i : Instance) (next : Option FeedCall) (live : s.live? h = some i)
    (quiet : s.presented h = []) (window : ∀ c, next = some c → c.Inv)
    (eq : t.slots[h]? = some (.live { i with call := next }))
  /-- The instance was created. -/
  | new (sink : Nat) (vacant : s.slots[h]? = none)
    (eq : t.slots[h]? = some (.live (Instance.fresh sink)))
  /-- The instance was discarded. -/
  | discard (i : Instance) (live : s.live? h = some i)
    (eq : t.slots[h]? = some (.discarded i.sink i.framer.out))

/-- A step that fetches no byte presents none. -/
theorem State.presented_of_not_fetched {s : State} {a : NextAction} (hA : s.nextAction = a)
    (hNot : ∀ k s', a ≠ .fetched k s') (h : Nat) : s.presented h = [] := by
  unfold State.presented
  split
  · next hFetched => exact absurd (hA.symm.trans hFetched) (hNot _ _)
  · rfl

/-- A step that fetches a byte presents it to the instance it belongs to and to no other. -/
theorem State.presented_of_fetched {s s' : State} {b : Byte}
    (h : s.nextAction = .fetched (decodeByte b) s') (n : Nat) :
    s.presented n = if s'.current = n then [b] else [] := by
  simp [State.presented, h, byte?_decodeByte]

/-- A call, made by the environment, at one place. -/
theorem slotCase_of_call {s t : State} {es : List HostEvent} {k : Instr}
    (isCall : k.byte? = none ∧ k.rowByte? = none) (hx : exec k { s with host := es } = .next t)
    (h : Nat) (quiet : s.presented h = []) : SlotCase s t h := by
  cases k with
  | new sink =>
    cases hx
    rcases lt_trichotomy h s.slots.length with lt | rfl | gt
    · exact .same quiet (List.getElem?_append_left lt)
    · exact .new sink (by simp) (by simp)
    · exact .same quiet (by simp [gt, gt.le])
  | feed n data off cnt ts =>
    obtain ⟨i, live, -, rfl⟩ := execFeed_next hx
    by_cases hn : h = n
    · subst hn
      exact .callSet i _ live quiet (fun _ => FeedCall.inv_start) (State.slots_setLive_self live _)
    · exact .same quiet (State.slots_setLive_ne hn _)
  | discard n =>
    obtain ⟨i, live, -, rfl⟩ := execDiscard_next hx
    by_cases hn : h = n
    · subst hn
      exact .discard i live (List.getElem?_set_self (State.live?_lt live))
    · exact .same quiet (List.getElem?_set_ne (Ne.symm hn))
  | chunk bytes ts =>
    cases ts <;> (cases hx; exact .same quiet rfl)
  | _ => simp [Instr.byte?, Instr.rowByte?] at isCall

/-- A turn, at one place. -/
theorem slotCase_of_turn {s t : State} {es : List HostEvent} {n : Nat} (hx : step s = .next t)
    (hAction : s.nextAction = State.takeTurn { s with host := es } n) (h : Nat) : SlotCase s t h := by
  have hCase := State.takeTurn_case { s with host := es } n
  rw [← hAction] at hCase
  unfold step at hx
  generalize hA : s.nextAction = a at hx hCase
  cases hCase with
  | idle =>
    cases hx
    exact .same (State.presented_of_not_fetched hA nofun h) rfl
  | byte i c b live call inWindow =>
    have ho : State.openCall? { s with host := es, current := n } = some (i, c) :=
      State.openCall?_eq_some.mpr ⟨live, call⟩
    simp only [exec_byte (byte?_decodeByte b), State.presentByte, advanceOutcome_onRow ho] at hx
    cases hx
    have hPresented := State.presented_of_fetched hA h
    by_cases hn : n = h
    · subst hn
      exact .byte i c b live call inWindow (by simpa using hPresented)
        (State.slots_setLive_self (s := { s with host := es, current := n }) live _)
    · exact .same (by simpa [hn] using hPresented) (State.slots_setLive_ne (Ne.symm hn) _)
  | finish i live =>
    cases hx
    have quiet := State.presented_of_not_fetched hA nofun h
    by_cases hn : n = h
    · subst hn
      exact .callSet i none live quiet nofun
        (State.slots_setLive_self (s := { s with host := es, current := n }) live _)
    · exact .same quiet (State.slots_setLive_ne (Ne.symm hn) _)
  | outside => cases hx

/-- Everything a step that answers a next state can have done to one place. -/
theorem step_slotCase {s t : State} (hx : step s = .next t) (h : Nat) : SlotCase s t h := by
  have hCase := State.nextAction_case s
  generalize hA : s.nextAction = a at hCase
  cases hCase with
  | idle =>
    simp only [step, hA] at hx
    cases hx
    exact .same (State.presented_of_not_fetched hA nofun h) rfl
  | turn es n => exact slotCase_of_turn hx hA h
  | call es k isCall =>
    simp only [step, hA] at hx
    exact slotCase_of_call isCall hx h (State.presented_of_not_fetched hA nofun h)

/-! ## The invariants -/

/-- An instance right after NEW meets the invariant of its place. -/
theorem Slot.inv_fresh (sink : Nat) : (Slot.live (Instance.fresh sink)).Inv :=
  ⟨Framer.inv_reset, nofun⟩

theorem State.Inv.slot {s : State} (hInv : s.Inv) {h : Nat} {slot : Slot}
    (hs : s.slots[h]? = some slot) : slot.Inv :=
  hInv slot (List.mem_of_getElem? hs)

theorem State.Inv.live {s : State} (hInv : s.Inv) {h : Nat} {i : Instance} (hi : s.live? h = some i) :
    i.framer.Inv ∧ ∀ c, i.call = some c → c.Inv :=
  hInv.slot (State.live?_eq_some.mp hi)

/-- Settles O34: each place meets its invariant after the step, whatever the step did to it. -/
theorem stepKeepsTheInvariants : Obligations.StepKeepsTheInvariants := by
  intro s t hInv hx slot hSlot
  obtain ⟨h, at_h⟩ := List.mem_iff_getElem?.mp hSlot
  cases step_slotCase hx h with
  | same _ eq => exact hInv.slot (eq.symm.trans at_h)
  | byte i c b live call inWindow _ eq =>
    obtain rfl := Option.some.inj (at_h.symm.trans eq)
    obtain ⟨hFramer, hCall⟩ := hInv.live live
    refine ⟨hFramer.step (i.framer.step_case b c.ts), ?_⟩
    rintro _ ⟨⟩
    exact (hCall c call).advance inWindow
  | callSet i next live _ window eq =>
    obtain rfl := Option.some.inj (at_h.symm.trans eq)
    exact ⟨(hInv.live live).1, window⟩
  | new sink _ eq =>
    obtain rfl := Option.some.inj (at_h.symm.trans eq)
    exact Slot.inv_fresh sink
  | discard i live eq =>
    obtain rfl := Option.some.inj (at_h.symm.trans eq)
    exact (hInv.live live).1.emitted

/-- Settles O32: a new instance is in the reset state, and the one of `State.reset` is a new one. -/
theorem resetStateOfAnInstance : Obligations.ResetStateOfAnInstance :=
  ⟨fun _ => ⟨rfl, rfl, rfl, rfl, rfl, rfl⟩, fun _ h => ⟨0, List.mem_singleton.mp h⟩⟩

/-- Settles O33: every instance of `State.reset` is a new one, and a new one meets the invariant. -/
theorem resetMeetsTheInvariants : Obligations.ResetMeetsTheInvariants := by
  intro slot hSlot
  obtain ⟨sink, rfl⟩ := resetStateOfAnInstance.2 slot hSlot
  exact Slot.inv_fresh sink

/-! ## A live instance, before and after a step -/

/-- A step leaves the registers of an instance that stays live as they are, or makes one STEP of the
byte it presents to that instance. -/
theorem step_framer {s t : State} {h : Nat} {i j : Instance} (hx : step s = .next t)
    (hi : s.live? h = some i) (hj : t.live? h = some j) :
    (s.presented h = [] ∧ j.framer = i.framer) ∨
    ∃ b ts, s.presented h = [b] ∧ j.framer = i.framer.step b ts := by
  have at_h := State.live?_eq_some.mp hj
  cases step_slotCase hx h with
  | same quiet eq =>
    have hj' : s.live? h = some j := State.live?_eq_some.mpr (eq.symm.trans at_h)
    cases hi.symm.trans hj'
    exact .inl ⟨quiet, rfl⟩
  | byte i' c b live _ _ presented eq =>
    cases hi.symm.trans live
    cases at_h.symm.trans eq
    exact .inr ⟨b, c.ts, presented, rfl⟩
  | callSet i' next live quiet _ eq =>
    cases hi.symm.trans live
    cases at_h.symm.trans eq
    exact .inl ⟨quiet, rfl⟩
  | new _ vacant => cases vacant.symm.trans (State.live?_eq_some.mp hi)
  | discard _ _ eq => cases at_h.symm.trans eq

/-- Settles O55: the registers are as before and no byte was presented, or they made one STEP of the
byte that was. -/
theorem stepConservesTheStream : Obligations.StepConservesTheStream := by
  intro s t h i j stream hi hInv hAcc hx hj
  rcases step_framer hx hi hj with ⟨quiet, hFramer⟩ | ⟨b, ts, presented, hFramer⟩
  · rw [quiet, List.append_nil, hFramer]
    exact hAcc
  · rw [presented, hFramer]
    exact hAcc.step hInv (i.framer.step_case b ts)

/-- Settles O39: no STEP clears the running status. -/
theorem runningStatusIsNeverCleared : Obligations.RunningStatusIsNeverCleared := by
  intro s t h i j hx hi hj valid
  rcases step_framer hx hi hj with ⟨-, hFramer⟩ | ⟨b, ts, -, hFramer⟩
  · rwa [hFramer]
  · rw [hFramer]
    exact (i.framer.step_case b ts).rsValid valid

/-! ## What was emitted -/

theorem State.emitted_of_slot {s : State} {h : Nat} {slot : Slot} (hs : s.slots[h]? = some slot) :
    s.emitted h = slot.emitted := by
  simp [State.emitted, hs]

theorem State.emitted_of_live {s : State} {h : Nat} {i : Instance} (hi : s.live? h = some i) :
    s.emitted h = i.framer.out :=
  State.emitted_of_slot (State.live?_eq_some.mp hi)

/-- What was emitted at a place stays emitted, whatever a step did to it. -/
theorem SlotCase.emitted_prefix {s t : State} {h : Nat} (hCase : SlotCase s t h) :
    s.emitted h <+: t.emitted h := by
  cases hCase with
  | same _ eq => rw [State.emitted, State.emitted, eq]
  | byte i c b live _ _ _ eq =>
    rw [State.emitted_of_live live, State.emitted_of_slot eq]
    exact (i.framer.step_case b c.ts).out_prefix
  | callSet i _ live _ _ eq =>
    rw [State.emitted_of_live live, State.emitted_of_slot eq]
    exact List.prefix_rfl
  | new _ vacant =>
    simp [State.emitted, vacant]
  | discard i live eq =>
    rw [State.emitted_of_live live, State.emitted_of_slot eq]
    exact List.prefix_rfl

/-- A place whose instance is not live stays so, whatever a step did to it. -/
theorem SlotCase.not_live {s t : State} {h : Nat} (hCase : SlotCase s t h) (lt : h < s.slots.length)
    (dead : s.live? h = none) : t.live? h = none := by
  cases hCase with
  | same _ eq => rw [← dead, State.live?, State.live?, eq]
  | byte _ _ _ live => cases dead.symm.trans live
  | callSet _ _ live => cases dead.symm.trans live
  | new _ vacant => exact absurd lt (Nat.not_lt.mpr (List.getElem?_eq_none_iff.mp vacant))
  | discard _ live => cases dead.symm.trans live

/-- No step loses a place in the order of creation. -/
theorem slots_length_le_of_step {s t : State} (hx : step s = .next t) :
    s.slots.length ≤ t.slots.length := by
  cases step_cases hx with
  | new es sink eq => simp [eq]
  | idle es k eq | byte es h i c b _ _ _ _ eq | finish es h i c _ _ _ eq
  | feed es h i _ _ _ _ _ _ eq | discard es h i _ _ eq | chunk es ps n eq => simp [eq]

/-- Settles O37, place by place. -/
theorem emissionsAreNeverTakenBack : Obligations.EmissionsAreNeverTakenBack := fun _ _ hx h =>
  ⟨(step_slotCase hx h).emitted_prefix, slots_length_le_of_step hx, (step_slotCase hx h).not_live⟩

end Sys2Proof.Machine
end

section
/-! PROOFS of the state family, the frames: what the rows and the four operations leave unchanged
(10_state.md R22, R34, R35; 20_memory.md R42, R52; 40_feed_command.md R113). -/

namespace Sys2Proof.Machine

/-! ## The rows that apply -/

section
variable {b : Byte} {f : Framer}

theorem Framer.step_of_inHeader_start (h : f.inHeader = true) (ts : Timestamp) :
    f.step 0xF0#8 ts = f.hdrSysexStart := by
  have st : f.st = .header := by simpa [Framer.inHeader] using h
  simp [Framer.step, st, Framer.headerStep]

theorem Framer.step_of_takesStatus (h : f.takesStatus b = true) (ts : Timestamp) :
    f.step b ts = f.hdrStatus b ts := by
  obtain ⟨⟨st, status⟩, ne⟩ : (f.st = .header ∧ isStatus b = true) ∧ b ≠ 0xF0#8 := by
    simpa [Framer.takesStatus, Framer.inHeader] using h
  simp [Framer.step, st, Framer.headerStep, status, ne]

theorem Framer.step_of_takesDataRs (h : f.takesDataRs b = true) (ts : Timestamp) :
    f.step b ts = f.hdrDataRs b ts := by
  obtain ⟨⟨st, data⟩, valid⟩ : (f.st = .header ∧ isStatus b = false) ∧ f.rsValid = true := by
    simpa [Framer.takesDataRs, Framer.inHeader] using h
  simp [Framer.step, st, Framer.headerStep, data, valid,
    ne_sysExStart_of_data (isStatus_eq_false.mp data)]

theorem Framer.step_of_takesDataNors (h : f.takesDataNors b = true) (ts : Timestamp) :
    f.step b ts = f.hdrDataNors := by
  obtain ⟨⟨st, data⟩, valid⟩ : (f.st = .header ∧ isStatus b = false) ∧ f.rsValid = false := by
    simpa [Framer.takesDataNors, Framer.inHeader] using h
  simp [Framer.step, st, Framer.headerStep, data, valid,
    ne_sysExStart_of_data (isStatus_eq_false.mp data)]

theorem Framer.step_of_inSysEx_start (h : f.inSysEx = true) (ts : Timestamp) :
    f.step 0xF0#8 ts = f.sxRestart ts := by
  have st : f.st = .sysEx := by simpa [Framer.inSysEx] using h
  simp [Framer.step, st, Framer.sysExStep]

theorem Framer.step_of_inSysEx_eox (h : f.inSysEx = true) (ts : Timestamp) :
    f.step 0xF7#8 ts = f.sxEox ts := by
  have st : f.st = .sysEx := by simpa [Framer.inSysEx] using h
  simp [Framer.step, st, Framer.sysExStep]

theorem Framer.step_of_takesAppend (h : f.takesAppend b = true) (ts : Timestamp) :
    f.step b ts = f.sxAppend b := by
  obtain ⟨⟨st, notStart⟩, notEnd⟩ : (f.st = .sysEx ∧ b ≠ 0xF0#8) ∧ b ≠ 0xF7#8 := by
    simpa [Framer.takesAppend, Framer.inSysEx] using h
  simp [Framer.step, st, Framer.sysExStep, notStart, notEnd]

theorem Framer.step_of_inParams (h : f.inParams = true) (ts : Timestamp) :
    f.step b ts = f.prmAppend b ts := by
  have st : f.st = .params := by simpa [Framer.inParams] using h
  simp [Framer.step, st]

end

/-- A transition that is the STEP of `b` where its condition holds made that STEP, if it answered. -/
theorem State.onRow_next_step {s t : State} {b : Byte} {applies : Framer → Bool}
    {act : Timestamp → Framer → Framer} (hx : s.onRow applies act = .next t)
    (hAct : ∀ f, applies f = true → ∀ ts, f.step b ts = act ts f) :
    ∃ i c, s.openCall? = some (i, c) ∧
      t = s.setLive s.current { i with framer := i.framer.step b c.ts } := by
  obtain ⟨i, c, ho, ha, rfl⟩ := State.onRow_next hx
  exact ⟨i, c, ho, by rw [hAct i.framer ha]⟩

/-- A BYTE or STEP row that answers a next state made one STEP on the current instance
(30_encoding.md R97; 40_feed_command.md R104). -/
theorem exec_row_next {k : Instr} {s t : State} (hk : k.byte?.isSome ∨ k.rowByte?.isSome)
    (hx : exec k s = .next t) : ∃ b i c, s.openCall? = some (i, c) ∧
      t = s.setLive s.current { i with framer := i.framer.step b c.ts } := by
  cases hb : k.byte? with
  | some b =>
    rw [exec_byte hb] at hx
    exact ⟨b, State.onRow_next_step hx fun _ _ _ => rfl⟩
  | none =>
    cases k with
    | hdrSysexStart =>
      exact ⟨_, State.onRow_next_step (act := fun _ => Framer.hdrSysexStart) hx
        fun _ h ts => Framer.step_of_inHeader_start h ts⟩
    | hdrStatus b =>
      exact ⟨b, State.onRow_next_step hx fun _ h ts => Framer.step_of_takesStatus h ts⟩
    | hdrDataRs b =>
      exact ⟨b, State.onRow_next_step hx fun _ h ts => Framer.step_of_takesDataRs h ts⟩
    | hdrDataNors b =>
      exact ⟨b, State.onRow_next_step (act := fun _ => Framer.hdrDataNors) hx
        fun _ h ts => Framer.step_of_takesDataNors h ts⟩
    | sxRestart =>
      exact ⟨_, State.onRow_next_step hx fun _ h ts => Framer.step_of_inSysEx_start h ts⟩
    | sxEox => exact ⟨_, State.onRow_next_step hx fun _ h ts => Framer.step_of_inSysEx_eox h ts⟩
    | sxAppend b =>
      exact ⟨b, State.onRow_next_step (act := fun _ => Framer.sxAppend b) hx
        fun _ h ts => Framer.step_of_takesAppend h ts⟩
    | prmAppend b =>
      exact ⟨b, State.onRow_next_step hx fun _ h ts => Framer.step_of_inParams h ts⟩
    | _ => simp [Instr.byte?, Instr.rowByte?] at hk hb

/-- Settles O38: a BYTE row is the STEP of its byte, which writes the running status there and only
there. -/
theorem runningStatusHasOneWriter : Obligations.RunningStatusHasOneWriter := by
  intro s i c k b ho hk
  obtain ⟨hi, -⟩ := State.openCall?_eq_some.mp ho
  refine ⟨s.setLive s.current { i with framer := i.framer.step b c.ts }, _, ?_,
    State.live?_setLive_self hi _, (i.framer.step_case b c.ts).rs_eq⟩
  rw [exec_byte hk]
  exact State.onRow_of_applies ho rfl _

/-! ## FEED buffers -/

/-- A FEED buffer is read at its own place only. -/
theorem State.bufferByte_congr {s t : State} {h : Nat} (eq : t.slots[h]? = s.slots[h]?) (a : Nat) :
    t.bufferByte h a = s.bufferByte h a := by
  simp only [State.bufferByte, State.live?, eq]

/-- An instance put in place with the same FEED in progress reads as before. -/
theorem State.bufferByte_setLive {s : State} {h : Nat} {i j : Instance} (hi : s.live? h = some i)
    (hCall : j.call = i.call) (k a : Nat) : (s.setLive h j).bufferByte k a = s.bufferByte k a := by
  by_cases hk : k = h
  · subst hk
    simp only [State.bufferByte, State.live?_setLive_self hi, hi, hCall]
  · exact State.bufferByte_congr (State.slots_setLive_ne hk j) a

/-- Settles O40: a row that answers made one STEP, which in SysEx and in Params writes one buffer. -/
theorem byteAndRowFrame : Obligations.ByteAndRowFrame := by
  intro s t k hk hx
  obtain ⟨b, i, c, ho, rfl⟩ := exec_row_next hk hx
  obtain ⟨hi, -⟩ := State.openCall?_eq_some.mp ho
  have hCase := i.framer.step_case b c.ts
  exact ⟨i, c, _, ho, rfl, State.bufferByte_setLive hi rfl, fun h hne => State.slots_setLive_ne hne _,
    hCase.frame_of_sysEx, hCase.frame_of_params⟩

/-! ## The operations -/

theorem execFeed_of_not_live {s : State} {h : Nat} (dead : s.live? h = none) (data : List Byte)
    (off cnt : Int) (ts : Timestamp) : execFeed h data off cnt ts s = .refused .notLive := by
  simp [execFeed, dead]

theorem execDiscard_of_not_live {s : State} {h : Nat} (dead : s.live? h = none) :
    execDiscard h s = .refused .notLive := by
  simp [execDiscard, dead]

theorem execFeed_of_idle {s : State} {h : Nat} {i : Instance} (hi : s.live? h = some i)
    (idle : i.call = none) (data : List Byte) (off cnt : Int) (ts : Timestamp) :
    execFeed h data off cnt ts s =
      .next (s.setLive h { i with call := FeedCall.start? data off cnt ts }) := by
  simp [execFeed, hi, idle]

theorem execDiscard_of_idle {s : State} {h : Nat} {i : Instance} (hi : s.live? h = some i)
    (idle : i.call = none) :
    execDiscard h s = .next { s with slots := s.slots.set h (.discarded i.sink i.framer.out) } := by
  simp [execDiscard, hi, idle]

/-- After DISCARD the instance is not live. -/
theorem State.live?_set_discarded (s : State) (h sink : Nat) (out : List Emission) :
    State.live? { s with slots := s.slots.set h (.discarded sink out) } h = none := by
  simp only [State.live?, List.getElem?_set_self']
  cases s.slots[h]? <;> rfl

/-- Settles O27: NEW appends a new instance; after DISCARD the place holds what was emitted. -/
theorem newAndDiscard : Obligations.NewAndDiscard := by
  refine ⟨fun s sink => ⟨Framer.reset, rfl, rfl, rfl, rfl, rfl, rfl⟩, fun s h i hi idle => ?_⟩
  have dead := s.live?_set_discarded h i.sink i.framer.out
  refine ⟨_, execDiscard_of_idle hi idle, rfl, ?_, dead, execFeed_of_not_live dead,
    execDiscard_of_not_live dead⟩
  rw [State.emitted_of_live hi]
  exact State.emitted_of_slot (s := { s with slots := _ }) (List.getElem?_set_self (State.live?_lt hi))

theorem execNew_frame {s t : State} {sink : Nat} (hx : execNew sink s = .next t) :
    (∀ h < s.slots.length, t.slots[h]? = s.slots[h]?) ∧
    (∀ h a, t.bufferByte h a = s.bufferByte h a) ∧ { t with slots := s.slots } = s := by
  cases hx
  refine ⟨fun h lt => List.getElem?_append_left lt, fun h a => ?_, rfl⟩
  rcases lt_trichotomy h s.slots.length with lt | rfl | gt
  · exact State.bufferByte_congr (List.getElem?_append_left lt) a
  · simp [State.bufferByte, State.live?, Instance.fresh]
  · exact State.bufferByte_congr (by simp [gt, gt.le]) a

theorem execFeed_frame {s t : State} {h : Nat} {data : List Byte} {off cnt : Int} {ts : Timestamp}
    (hx : execFeed h data off cnt ts s = .next t) :
    (∃ i j, s.live? h = some i ∧ t.live? h = some j ∧ j.framer = i.framer ∧ j.sink = i.sink) ∧
    (∀ k, k ≠ h → t.slots[k]? = s.slots[k]?) ∧ { t with slots := s.slots } = s := by
  obtain ⟨i, hi, -, rfl⟩ := execFeed_next hx
  exact ⟨⟨i, _, hi, State.live?_setLive_self hi _, rfl, rfl⟩,
    fun k hk => State.slots_setLive_ne hk _, rfl⟩

theorem execDiscard_frame {s t : State} {h : Nat} (hx : execDiscard h s = .next t) :
    (∀ k, k ≠ h → t.slots[k]? = s.slots[k]?) ∧ { t with slots := s.slots } = s := by
  obtain ⟨i, -, -, rfl⟩ := execDiscard_next hx
  exact ⟨fun k hk => List.getElem?_set_ne hk.symm, rfl⟩

theorem execChunk_frame {s t : State} {bytes : List Byte} {ts : Option Timestamp}
    (hx : execChunk bytes ts s = .next t) :
    t.slots = s.slots ∧ t.current = s.current ∧ t.host = s.host := by
  cases ts <;> (cases hx; exact ⟨rfl, rfl, rfl⟩)

/-- Settles O41: the frame of each operation, and the buffers at the places it leaves as they are. -/
theorem operationFrames : Obligations.OperationFrames := by
  refine ⟨fun s t sink hx => execNew_frame hx, fun s t h data off cnt ts hx => ?_,
    fun s t h hx => ?_, fun s t bytes ts hx => ?_⟩
  · obtain ⟨own, others, rest⟩ := execFeed_frame hx
    exact ⟨own, others, fun k a hk => State.bufferByte_congr (others k hk) a, rest⟩
  · obtain ⟨others, rest⟩ := execDiscard_frame hx
    exact ⟨others, fun k a hk => State.bufferByte_congr (others k hk) a, rest⟩
  · obtain ⟨hSlots, hCurrent, hHost⟩ := execChunk_frame hx
    exact ⟨hSlots, hCurrent, hHost, fun h a => State.bufferByte_congr (by rw [hSlots]) a⟩

/-! ## The idle machine -/

theorem State.firstFeeding_eq_none {s : State} (idle : ∀ h i, s.live? h = some i → i.call = none) :
    s.firstFeeding = none := by
  refine List.findIdx?_eq_none_iff.mpr fun slot hSlot => ?_
  obtain ⟨h, at_h⟩ := List.mem_iff_getElem?.mp hSlot
  cases slot with
  | live i => simp [Slot.isFeeding, idle h i (State.live?_eq_some.mpr at_h)]
  | discarded => rfl

/-- The turn of an instance without a FEED uses up the event and names the instance. -/
theorem step_of_idle_turn {s : State} {h : Nat} {rest : List HostEvent} (hh : s.host = .turn h :: rest)
    (idle : ∀ i, s.live? h = some i → i.call = none) :
    step s = .next { s with host := rest, current := h } := by
  have hTurn := State.takeTurn_idle (s := { s with host := rest }) idle
  simp only [step, State.nextAction, hh, hTurn]

/-- Settles O8: no instance has the turn by default, and a turn given to an idle one does nothing. -/
theorem idleHoldsTheState : Obligations.IdleHoldsTheState := by
  refine ⟨fun s hh idle => ?_, fun s h rest => step_of_idle_turn⟩
  simp only [step, State.nextAction, hh, State.firstFeeding_eq_none idle]

end Sys2Proof.Machine
end

section
/-! PROOFS of the state family, whole FEED calls: the call, its turns and its return run to the loop of
40_feed_command.md R103, so from reset everything fed is accounted for (70_reset_and_hazards.md R215). -/

namespace Sys2Proof.Machine

/-! ## Runs -/

theorem runSteps_succ_of_step {s s' : State} (hs : step s = .next s') (n : Nat) :
    runSteps (n + 1) s = runSteps n s' := by
  simp only [runSteps, hs]

/-- A run that answers, and then one more run. -/
theorem runSteps_add {m : Nat} {s t : State} (hs : runSteps m s = .next t) (n : Nat) :
    runSteps (m + n) s = runSteps n t := by
  induction m generalizing s with
  | zero => cases hs; rw [Nat.zero_add]
  | succ m ih =>
    cases hStep : step s with
    | next s' =>
      rw [runSteps_succ_of_step hStep] at hs
      rw [Nat.add_right_comm, runSteps_succ_of_step hStep, ih hs]
    | fault | refused => simp [runSteps, hStep] at hs

/-! ## One FEED -/

/-- The turns of a FEED whose window bytes from the cursor on are `bs`, one a byte and one to return:
the registers are as the loop leaves them, and the FEED is over. -/
theorem runSteps_turns {s : State} {h : Nat} {i : Instance} {c : FeedCall} {bs : List Byte}
    {rest : List HostEvent} (hHost : s.host = List.replicate (bs.length + 1) (.turn h) ++ rest)
    (hi : s.live? h = some i) (hCall : i.call = some c) (hStop : c.cursor + bs.length = c.stop)
    (hRead : ∀ k < bs.length, c.data.read (c.cursor + k) = bs[k]?) :
    runSteps (bs.length + 1) s = .next (State.setLive { s with host := rest, current := h } h
      { i with framer := i.framer.stepAll bs c.ts, call := none }) := by
  induction bs generalizing s i c with
  | nil => exact runSteps_succ_of_step (step_of_finish hHost hi hCall hStop.ge) 0
  | cons b bs ih =>
    rw [List.length_cons] at hStop
    have hHost' : s.host = .turn h :: (List.replicate (bs.length + 1) (.turn h) ++ rest) := hHost
    have hByte := step_of_turn hHost' hi hCall (by omega) (hRead 0 (Nat.zero_lt_succ _))
    have hReadRest : ∀ k < bs.length, c.advance.data.read (c.advance.cursor + k) = bs[k]? := by
      intro k hk
      have hNext := hRead (k + 1) (Nat.succ_lt_succ hk)
      rwa [← Nat.add_assoc, Nat.add_right_comm] at hNext
    have hLive := State.live?_setLive_self (s := { s with
      host := List.replicate (bs.length + 1) (.turn h) ++ rest
      current := h }) hi { i with framer := i.framer.step b c.ts, call := some c.advance }
    rw [List.length_cons, runSteps_succ_of_step hByte, ih rfl hLive rfl
      (by simp only [FeedCall.advance_cursor, FeedCall.advance_stop]; omega) hReadRest]
    exact congrArg _ (State.setLive_setLive { s with host := rest, current := h } h _ _)

/-- The call of a FEED on an idle instance opens its window. -/
theorem step_of_feed {s : State} {h : Nat} {i : Instance} {bytes : List Byte} {off cnt : Int}
    {ts : Timestamp} {rest : List HostEvent} (hHost : s.host = .feed h bytes off cnt ts :: rest)
    (hi : s.live? h = some i) (idle : i.call = none) :
    step s = .next (State.setLive { s with host := rest } h
      { i with call := FeedCall.start? bytes off cnt ts }) := by
  simp only [step, State.nextAction, hHost]
  exact execFeed_of_idle (s := { s with host := rest }) hi idle bytes off cnt ts

/-- The window of a FEED of a whole buffer (R110). -/
theorem FeedCall.start?_whole {bytes : List Byte} (hne : bytes ≠ []) (ts : Timestamp) :
    FeedCall.start? bytes 0 bytes.length ts = some (FeedCall.over bytes ts) := by
  simp [FeedCall.start?, windowOf, FeedCall.over, hne]

/-- A FEED of a whole buffer on an idle instance, with its turns: the loop of R103 over the buffer. -/
theorem runSteps_feed {s : State} {h : Nat} {i : Instance} {bytes : List Byte} {ts : Timestamp}
    {rest : List HostEvent}
    (hHost : s.host = .feed h bytes 0 bytes.length ts ::
      (List.replicate (bytes.length + 1) (.turn h) ++ rest))
    (hi : s.live? h = some i) (idle : i.call = none) :
    runSteps (bytes.length + 1 + 1) s = .next (State.setLive { s with host := rest, current := h } h
      { i with framer := i.framer.stepAll bytes ts, call := none }) := by
  have hLive := State.live?_setLive_self (s := { s with
    host := List.replicate (bytes.length + 1) (.turn h) ++ rest }) hi
      { i with call := FeedCall.start? bytes 0 bytes.length ts }
  rw [runSteps_succ_of_step (step_of_feed hHost hi idle)]
  by_cases hne : bytes = []
  · subst hne
    have hTurn := step_of_idle_turn (rest := rest) rfl fun j hj => by
      cases hLive.symm.trans hj
      rfl
    exact (runSteps_succ_of_step hTurn 0).trans rfl
  · rw [FeedCall.start?_whole hne] at hLive ⊢
    rw [runSteps_turns (bs := bytes) rfl hLive rfl (Nat.zero_add _) fun k _ => by
      simp [FeedCall.over]]
    exact congrArg _ (State.setLive_setLive { s with host := rest, current := h } h _ _)

/-! ## A script of FEEDs -/

/-- The registers after whole buffers were stepped, one call after the other. -/
def Framer.feedAll (parts : List (List Byte × Timestamp)) (f : Framer) : Framer :=
  parts.foldl (fun g p => g.stepAll p.1 p.2) f

/-- Every script of FEEDs on an idle instance runs to its end, and leaves the instance idle. -/
theorem runSteps_feedScript {s : State} {h : Nat} {i : Instance}
    (parts : List (List Byte × Timestamp)) (hHost : s.host = feedScript h parts)
    (hi : s.live? h = some i) (idle : i.call = none) :
    ∃ t, runSteps (feedScript h parts).length s = .next t ∧
      t.live? h = some { i with framer := i.framer.feedAll parts, call := none } := by
  induction parts generalizing s i with
  | nil => exact ⟨s, rfl, by rw [hi, ← idle]; rfl⟩
  | cons p parts ih =>
    obtain ⟨bytes, ts⟩ := p
    have hFeed := runSteps_feed hHost hi idle
    obtain ⟨t, hRun, hLive⟩ := ih (s := State.setLive
        { s with host := feedScript h parts, current := h } h
        { i with framer := i.framer.stepAll bytes ts, call := none })
      rfl (State.live?_setLive_self (s := { s with host := _, current := h }) hi _) rfl
    refine ⟨t, ?_, hLive⟩
    have hLength : (feedScript h ((bytes, ts) :: parts)).length =
        bytes.length + 1 + 1 + (feedScript h parts).length := by
      simp [feedScript]
      omega
    rw [hLength, runSteps_add hFeed, hRun]

/-- Whole buffers, one call after the other, are accounted for. -/
theorem Framer.Accounts.feedAll (parts : List (List Byte × Timestamp)) {f : Framer}
    {stream : List Byte} (hInv : f.Inv) (hAcc : f.Accounts stream) :
    (f.feedAll parts).Accounts (stream ++ (parts.map Prod.fst).flatten) := by
  induction parts generalizing f stream with
  | nil => simpa [Framer.feedAll] using hAcc
  | cons p parts ih =>
    obtain ⟨hInv', hAcc'⟩ := hAcc.stepAll p.1 p.2 hInv
    simpa [Framer.feedAll] using ih hInv' hAcc'

/-- Settles O48: the script runs to the loops of its FEEDs, which go on accounting for every byte from
the registers of a new instance. -/
theorem streamIsConserved : Obligations.StreamIsConserved := by
  intro h i parts hi
  obtain ⟨sink, hFresh⟩ := resetStateOfAnInstance.2 _ (List.mem_of_getElem? (State.live?_eq_some.mp hi))
  obtain rfl : i = Instance.fresh sink := Slot.live.inj hFresh
  obtain ⟨t, hRun, hLive⟩ := runSteps_feedScript
    (s := { State.reset with host := feedScript h parts }) parts rfl hi rfl
  exact ⟨t, _, hRun, hLive, Framer.accounts_reset.feedAll parts Framer.inv_reset⟩

end Sys2Proof.Machine
end

section
/-! PROOFS of the memory family: the inputs without a meaning are refused by name (20_memory.md R50;
40_feed_command.md R113; 60_exceptions.md R194), and a turn reads and writes the place of its instance
alone, so the turns of two instances commute (20_memory.md R52). -/

namespace Sys2Proof.Machine

/-! ## Refusals -/

theorem execFeed_of_feeding {s : State} {h : Nat} {i : Instance} (hi : s.live? h = some i)
    (feeding : i.call.isSome) (data : List Byte) (off cnt : Int) (ts : Timestamp) :
    execFeed h data off cnt ts s = .refused .overlappingFeed := by
  simp [execFeed, hi, feeding]

theorem execDiscard_of_feeding {s : State} {h : Nat} {i : Instance} (hi : s.live? h = some i)
    (feeding : i.call.isSome) : execDiscard h s = .refused .discardInsideFeed := by
  simp [execDiscard, hi, feeding]

/-- Outside any FEED no BYTE and no STEP row runs. -/
theorem exec_row_of_no_call {k : Instr} {s : State} (hk : k.byte?.isSome ∨ k.rowByte?.isSome)
    (ho : s.openCall? = none) : exec k s = .refused .noFeedInProgress := by
  obtain ⟨applies, act, hRow⟩ := exec_eq_onRow hk
  rw [hRow, State.onRow_of_no_call ho]

/-- Settles O28: each clause is one refusal of FEED, of DISCARD or of the rows. -/
theorem misuseIsRefused : Obligations.MisuseIsRefused :=
  ⟨fun _ _ _ data off cnt ts hi feeding =>
      ⟨execFeed_of_feeding hi feeding data off cnt ts, execDiscard_of_feeding hi feeding⟩,
    fun _ _ data off cnt ts dead =>
      ⟨execFeed_of_not_live dead data off cnt ts, execDiscard_of_not_live dead⟩,
    fun _ _ ho hk => exec_row_of_no_call hk ho⟩

/-! ## One turn -/

/-- The turn of an instance whose cursor stands in the window but outside the buffer faults. -/
theorem step_of_outside {s : State} {h : Nat} {i : Instance} {c : FeedCall}
    {rest : List HostEvent} (hHost : s.host = .turn h :: rest) (hi : s.live? h = some i)
    (hCall : i.call = some c) (inWindow : c.cursor < c.stop) (outside : c.data.read c.cursor = none) :
    step s = .fault .readOutsideBuffer := by
  have ho : State.openCall? { s with host := rest, current := h } = some (i, c) :=
    State.openCall?_eq_some.mpr ⟨hi, hCall⟩
  simp [step, State.nextAction, hHost, State.takeTurn, ho, FeedCall.atEnd, Nat.not_le.mpr inWindow,
    FeedCall.fetchBytes, outside, decode]

/-- Where the place `h` holds `old`, the turn of `h` puts `new` there, uses up its event, names `h` as
the current instance and changes nothing else, whatever the rest of the state is. Where there is no
place `h` nothing is put, and `new` is without effect. -/
def TurnPuts (h : Nat) (old : Option Slot) (new : Slot) : Prop :=
  ∀ (s : State) (rest : List HostEvent), s.slots[h]? = old →
    step { s with host := .turn h :: rest } =
      .next { s with slots := s.slots.set h new, current := h, host := rest }

/-- An instance is live wherever its place is the same. -/
theorem State.live?_congr {s t : State} {h : Nat} (eq : t.slots[h]? = s.slots[h]?) :
    t.live? h = s.live? h := by
  simp only [State.live?, eq]

/-- The turn of an instance without a FEED puts back what stands at its place. -/
theorem turnPuts_of_idle {s : State} {h : Nat} (idle : ∀ i, s.live? h = some i → i.call = none) :
    ∃ new, TurnPuts h s.slots[h]? new := by
  refine ⟨s.slots[h]?.getD (.discarded 0 []), fun t rest eq => ?_⟩
  have hStep := step_of_idle_turn (s := { t with host := .turn h :: rest }) rfl
    fun i hi => idle i ((State.live?_congr eq).symm.trans hi)
  have hSame : t.slots.set h (s.slots[h]?.getD (.discarded 0 [])) = t.slots := by
    rw [← eq]
    by_cases lt : h < t.slots.length
    · simp [lt]
    · exact List.set_eq_of_length_le (Nat.not_lt.mp lt)
  rw [hStep, hSame]

/-- A turn that answers a next state is decided by the place of its instance alone. -/
theorem turnPuts_of_step {s t : State} {h : Nat} {rest : List HostEvent}
    (hx : step { s with host := .turn h :: rest } = .next t) :
    ∃ new, TurnPuts h s.slots[h]? new := by
  by_cases hIdle : ∀ i, s.live? h = some i → i.call = none
  · exact turnPuts_of_idle hIdle
  · push Not at hIdle
    obtain ⟨i, live, hCall⟩ := hIdle
    obtain ⟨c, call⟩ := Option.ne_none_iff_exists'.mp hCall
    by_cases inWindow : c.cursor < c.stop
    · cases read : c.data.read c.cursor with
      | none => cases hx.symm.trans (step_of_outside rfl live call inWindow read)
      | some b =>
        exact ⟨.live { i with framer := i.framer.step b c.ts, call := some c.advance },
          fun t rest eq => step_of_turn (s := { t with host := .turn h :: rest }) rfl
            ((State.live?_congr eq).trans live) call inWindow read⟩
    · exact ⟨.live { i with call := none },
        fun t rest eq => step_of_finish (s := { t with host := .turn h :: rest }) rfl
          ((State.live?_congr eq).trans live) call (Nat.not_lt.mp inWindow)⟩

/-! ## Two turns -/

/-- The turn of `a` leaves the place of another instance `b` to be read by the turn of `b`. -/
theorem runSteps_two_turns {a b : Nat} (hne : a ≠ b) {s : State} {newA newB : Slot}
    (hA : TurnPuts a s.slots[a]? newA) (hB : TurnPuts b s.slots[b]? newB) (rest : List HostEvent) :
    runSteps 2 { s with host := .turn a :: .turn b :: rest } = .next { s with
      slots := (s.slots.set a newA).set b newB, current := b, host := rest } := by
  have hSecond := hB { s with slots := s.slots.set a newA, current := a } rest
    (List.getElem?_set_ne hne)
  rw [runSteps_succ_of_step (hA s _ rfl), runSteps_succ_of_step hSecond, runSteps]

/-- Both turns of a run of two that answers are decided by the places of their instances before it. -/
theorem turnPuts_of_runSteps {s t : State} {a b : Nat} {rest : List HostEvent} (hne : a ≠ b)
    (hx : runSteps 2 { s with host := .turn a :: .turn b :: rest } = .next t) :
    ∃ newA newB, TurnPuts a s.slots[a]? newA ∧ TurnPuts b s.slots[b]? newB := by
  cases hFirst : step { s with host := .turn a :: .turn b :: rest } with
  | fault | refused => simp [runSteps, hFirst] at hx
  | next s' =>
    obtain ⟨newA, hA⟩ := turnPuts_of_step hFirst
    rw [runSteps_succ_of_step (hA s _ rfl)] at hx
    cases hSecond : step { s with
      slots := s.slots.set a newA, current := a, host := .turn b :: rest } with
    | fault | refused => simp [runSteps, hSecond] at hx
    | next s'' =>
      obtain ⟨newB, hB⟩ := turnPuts_of_step (s := { s with slots := _, current := a }) hSecond
      rw [List.getElem?_set_ne hne] at hB
      exact ⟨newA, newB, hA, hB⟩

/-- Settles O43: each turn puts at its own place what the place alone decides, in either order. -/
theorem turnsOfDistinctInstancesCommute : Obligations.TurnsOfDistinctInstancesCommute := by
  intro s t a b rest hne hx
  obtain ⟨newA, newB, hA, hB⟩ := turnPuts_of_runSteps hne hx
  cases (runSteps_two_turns hne hA hB rest).symm.trans hx
  exact ⟨_, runSteps_two_turns hne.symm hB hA rest, List.set_comm _ _ hne.symm, rfl, rfl, rfl⟩

end Sys2Proof.Machine
end

section
/-! PROOFS of the encoding family: the decoder undoes the encoding strings of the BYTE rows
(30_encoding.md R64 to R88), one STEP row stands for each BYTE row in each state (R97, R98), and the
running status stands for the status byte it leaves out (R63, R95). -/

namespace Sys2Proof

/-! ## The BYTE rows -/

/-- A byte with bit 7 clear is `DATA` with the other seven bits as its field (R65). -/
theorem decodeByte_data (v : BitVec 7) : decodeByte (0#1 ++ v) = .data v := by
  have bit7 : ¬ (0#1 ++ v).getLsbD 7 = true := by rw [BitVec.getLsbD_append]; exact Bool.false_ne_true
  exact (if_neg bit7).trans (congrArg Instr.data BitVec.extractLsb'_append_eq_right)

/-- A byte with bit 7 set is decoded by its two nibbles (R66 to R88). -/
theorem decodeByte_status {hi : BitVec 4} (status : hi.getLsbD 3 = true) (lo : BitVec 4) :
    decodeByte (hi ++ lo) = decodeStatus hi lo := by
  have bit7 : (hi ++ lo).getLsbD 7 = true := by rw [BitVec.getLsbD_append]; exact status
  exact (if_pos bit7).trans
    (congrArg₂ decodeStatus BitVec.extractLsb'_append_eq_left BitVec.extractLsb'_append_eq_right)

/-- The byte of a BYTE row decodes to that row, with its field at every value. -/
theorem decodeByte_of_byte? {k : Instr} {b : Byte} (hk : k.byte? = some b) : decodeByte b = k := by
  cases k with
  | data v => cases hk; exact decodeByte_data v
  | st8n n | st9n n | stAn n | stBn n | stCn n | stDn n | stEn n =>
    cases hk; exact decodeByte_status rfl n
  | sysexStart | scF1 | scF2 | scF3 | undefF4 | undefF5 | scF6 | eoxF7 | rtF8 | undefF9 | rtFA | rtFB
  | rtFC | undefFD | rtFE | rtFF => cases hk; rfl
  | _ => cases hk

theorem encode_of_byte? {k : Instr} {b : Byte} (hk : k.byte? = some b) : encode k = some [b] := by
  simp [encode, hk]

/-- Settles O4: a BYTE row encodes to its byte, its byte decodes to it, and every byte has its row. -/
theorem decodeEncodeAgree : Obligations.DecodeEncodeAgree :=
  ⟨fun k b rest hk => ⟨encode_of_byte? hk, by rw [decode, decodeByte_of_byte? hk]⟩,
    Machine.byte?_decodeByte⟩

/-- Settles O1: each byte is the byte of the row it is written from. -/
theorem writtenBytesDecode : Obligations.WrittenBytesDecode :=
  ⟨decodeByte_of_byte? rfl, decodeByte_of_byte? rfl, decodeByte_of_byte? rfl,
    decodeByte_of_byte? rfl, decodeByte_of_byte? rfl, decodeByte_of_byte? rfl,
    decodeByte_of_byte? rfl, decodeByte_of_byte? rfl, decodeByte_of_byte? rfl,
    decodeByte_of_byte? rfl⟩

/-- Settles O2, by the table and the decoder at each of the 256 bytes. -/
theorem everyByteMatchesOneRow : Obligations.EveryByteMatchesOneRow := by
  unfold Obligations.EveryByteMatchesOneRow
  decide

/-- Settles O3, by `LEN` and the ranges at each of the 256 bytes. -/
theorem lengthOfEveryByte : Obligations.LengthOfEveryByte := by
  unfold Obligations.LengthOfEveryByte
  decide

end Sys2Proof

namespace Sys2Proof.Machine

/-- Settles O23: a BYTE row presents its byte, and that has no condition. -/
theorem everyByteCompletes : Obligations.EveryByteCompletes := by
  intro s i c k b ho hk
  rw [exec_byte hk]
  exact State.onRow_of_applies ho rfl _

/-! ## The conditions of the STEP rows -/

section
variable {b : Byte} {f : Framer}

theorem Framer.inHeader_iff : f.inHeader = true ↔ f.st = .header := decide_eq_true_iff

theorem Framer.inSysEx_iff : f.inSysEx = true ↔ f.st = .sysEx := decide_eq_true_iff

theorem Framer.inParams_iff : f.inParams = true ↔ f.st = .params := decide_eq_true_iff

theorem Framer.takesStatus_iff :
    f.takesStatus b = true ↔ f.st = .header ∧ isStatus b = true ∧ b ≠ 0xF0#8 := by
  simp [Framer.takesStatus, Framer.inHeader, and_assoc]

theorem Framer.takesDataRs_iff :
    f.takesDataRs b = true ↔ f.st = .header ∧ isStatus b = false ∧ f.rsValid = true := by
  simp [Framer.takesDataRs, Framer.inHeader, and_assoc]

theorem Framer.takesDataNors_iff :
    f.takesDataNors b = true ↔ f.st = .header ∧ isStatus b = false ∧ f.rsValid = false := by
  simp [Framer.takesDataNors, Framer.inHeader, and_assoc]

theorem Framer.takesAppend_iff :
    f.takesAppend b = true ↔ f.st = .sysEx ∧ b ≠ 0xF0#8 ∧ b ≠ 0xF7#8 := by
  simp [Framer.takesAppend, Framer.inSysEx, and_assoc]

end

/-! ## The STEP row of a byte -/

/-- The STEP row `row` takes the byte `b` and its condition holds in the registers `f` (R97). -/
inductive Framer.RowApplies (b : Byte) (f : Framer) : Instr → Prop
  /-- R121. -/
  | hdrSysexStart (start : b = 0xF0#8) (cond : f.inHeader = true) : RowApplies b f .hdrSysexStart
  /-- R122. -/
  | hdrStatus (cond : f.takesStatus b = true) : RowApplies b f (.hdrStatus b)
  /-- R126. -/
  | hdrDataRs (cond : f.takesDataRs b = true) : RowApplies b f (.hdrDataRs b)
  /-- R130. -/
  | hdrDataNors (cond : f.takesDataNors b = true) : RowApplies b f (.hdrDataNors b)
  /-- R141. -/
  | sxRestart (start : b = 0xF0#8) (cond : f.inSysEx = true) : RowApplies b f .sxRestart
  /-- R143. -/
  | sxEox (eox : b = 0xF7#8) (cond : f.inSysEx = true) : RowApplies b f .sxEox
  /-- R142. -/
  | sxAppend (cond : f.takesAppend b = true) : RowApplies b f (.sxAppend b)
  /-- R150. -/
  | prmAppend (cond : f.inParams = true) : RowApplies b f (.prmAppend b)

/-- The row that the order of tests gives applies. -/
theorem Framer.rowApplies_rowFor (b : Byte) (f : Framer) : f.RowApplies b (f.rowFor b) := by
  unfold Framer.rowFor
  split
  · next st =>
    split_ifs with start status valid
    · exact .hdrSysexStart start (Framer.inHeader_iff.mpr st)
    · exact .hdrStatus (Framer.takesStatus_iff.mpr ⟨st, status, start⟩)
    · exact .hdrDataRs (Framer.takesDataRs_iff.mpr ⟨st, by simpa using status, valid⟩)
    · exact .hdrDataNors (Framer.takesDataNors_iff.mpr
        ⟨st, by simpa using status, by simpa using valid⟩)
  · next st =>
    split_ifs with start eox
    · exact .sxRestart start (Framer.inSysEx_iff.mpr st)
    · exact .sxEox eox (Framer.inSysEx_iff.mpr st)
    · exact .sxAppend (Framer.takesAppend_iff.mpr ⟨st, start, eox⟩)
  · next st => exact .prmAppend (Framer.inParams_iff.mpr st)

namespace Framer.RowApplies

variable {b : Byte} {f : Framer} {row : Instr}

/-- No other row applies. -/
theorem eq_rowFor (h : f.RowApplies b row) : row = f.rowFor b := by
  cases h with
  | hdrSysexStart start cond => simp [Framer.rowFor, Framer.inHeader_iff.mp cond, start]
  | hdrStatus cond =>
    obtain ⟨st, status, ne⟩ := Framer.takesStatus_iff.mp cond
    simp [Framer.rowFor, st, status, ne]
  | hdrDataRs cond =>
    obtain ⟨st, data, valid⟩ := Framer.takesDataRs_iff.mp cond
    simp [Framer.rowFor, st, data, valid, ne_sysExStart_of_data (isStatus_eq_false.mp data)]
  | hdrDataNors cond =>
    obtain ⟨st, data, valid⟩ := Framer.takesDataNors_iff.mp cond
    simp [Framer.rowFor, st, data, valid, ne_sysExStart_of_data (isStatus_eq_false.mp data)]
  | sxRestart start cond => simp [Framer.rowFor, Framer.inSysEx_iff.mp cond, start]
  | sxEox eox cond => simp [Framer.rowFor, Framer.inSysEx_iff.mp cond, eox]
  | sxAppend cond =>
    obtain ⟨st, notStart, notEnd⟩ := Framer.takesAppend_iff.mp cond
    simp [Framer.rowFor, st, notStart, notEnd]
  | prmAppend cond => simp [Framer.rowFor, Framer.inParams_iff.mp cond]

theorem wellFormed (h : f.RowApplies b row) : row.wellFormed = true := by
  cases h with
  | hdrStatus cond =>
    obtain ⟨-, status, ne⟩ := Framer.takesStatus_iff.mp cond
    exact decide_eq_true ⟨isStatus_iff.mp status, ne⟩
  | hdrDataRs cond =>
    obtain ⟨-, data, -⟩ := Framer.takesDataRs_iff.mp cond
    exact decide_eq_true (isStatus_eq_false.mp data)
  | hdrDataNors cond =>
    obtain ⟨-, data, -⟩ := Framer.takesDataNors_iff.mp cond
    exact decide_eq_true (isStatus_eq_false.mp data)
  | sxAppend cond =>
    obtain ⟨-, notBounds⟩ := Framer.takesAppend_iff.mp cond
    exact decide_eq_true notBounds
  | _ => rfl

theorem rowByte? (h : f.RowApplies b row) : row.rowByte? = some b := by
  cases h with
  | hdrSysexStart start | sxRestart start => rw [start]; rfl
  | sxEox eox => rw [eox]; rfl
  | _ => rfl

end Framer.RowApplies

section
variable {s : State} {i : Instance} {c : FeedCall} {b : Byte} {row : Instr}

/-- A row that applies is the STEP of its byte. -/
theorem exec_of_rowApplies (ho : s.openCall? = some (i, c)) (h : i.framer.RowApplies b row) :
    exec row s = .next (s.setLive s.current { i with framer := i.framer.step b c.ts }) := by
  have completes {k : Instr} {applies : Framer → Bool} {act : Timestamp → Framer → Framer}
      (hRow : exec k s = s.onRow applies act) (cond : applies i.framer = true)
      (hStep : i.framer.step b c.ts = act c.ts i.framer) : exec k s =
        .next (s.setLive s.current { i with framer := i.framer.step b c.ts }) := by
    rw [hRow, hStep]
    exact State.onRow_of_applies ho cond act
  cases h with
  | hdrSysexStart start cond =>
    exact completes (act := fun _ => Framer.hdrSysexStart) rfl cond
      (start ▸ Framer.step_of_inHeader_start cond c.ts)
  | hdrStatus cond => exact completes rfl cond (Framer.step_of_takesStatus cond c.ts)
  | hdrDataRs cond => exact completes rfl cond (Framer.step_of_takesDataRs cond c.ts)
  | hdrDataNors cond =>
    exact completes (act := fun _ => Framer.hdrDataNors) rfl cond
      (Framer.step_of_takesDataNors cond c.ts)
  | sxRestart start cond =>
    exact completes rfl cond (start ▸ Framer.step_of_inSysEx_start cond c.ts)
  | sxEox eox cond => exact completes rfl cond (eox ▸ Framer.step_of_inSysEx_eox cond c.ts)
  | sxAppend cond =>
    exact completes (act := fun _ => Framer.sxAppend b) rfl cond
      (Framer.step_of_takesAppend cond c.ts)
  | prmAppend cond => exact completes rfl cond (Framer.step_of_inParams cond c.ts)

/-- A row that takes the byte and does not apply is refused (R98; log 19). -/
theorem exec_of_not_rowApplies (ho : s.openCall? = some (i, c)) (hb : row.rowByte? = some b)
    (h : ¬ i.framer.RowApplies b row) : exec row s = .refused .rowDoesNotApply := by
  have refused {k : Instr} {applies : Framer → Bool} {act : Timestamp → Framer → Framer}
      (hRow : exec k s = s.onRow applies act) (fails : ¬ applies i.framer = true) :
      exec k s = .refused .rowDoesNotApply := by
    rw [hRow]
    exact State.onRow_of_not_applies ho (Bool.eq_false_iff.mpr fails) act
  cases row with
  | hdrSysexStart =>
    cases hb
    exact refused (act := fun _ => Framer.hdrSysexStart) rfl fun cond => h (.hdrSysexStart rfl cond)
  | hdrStatus => cases hb; exact refused rfl fun cond => h (.hdrStatus cond)
  | hdrDataRs => cases hb; exact refused rfl fun cond => h (.hdrDataRs cond)
  | hdrDataNors =>
    cases hb
    exact refused (act := fun _ => Framer.hdrDataNors) rfl fun cond => h (.hdrDataNors cond)
  | sxRestart => cases hb; exact refused rfl fun cond => h (.sxRestart rfl cond)
  | sxEox => cases hb; exact refused rfl fun cond => h (.sxEox rfl cond)
  | sxAppend =>
    cases hb
    exact refused (act := fun _ => Framer.sxAppend b) rfl fun cond => h (.sxAppend cond)
  | prmAppend => cases hb; exact refused rfl fun cond => h (.prmAppend cond)
  | _ => cases hb

end

/-- Settles O22: the row that the order of tests gives applies, so it is the STEP of the byte, as the
byte's BYTE row is; no other row applies. -/
theorem exactlyOneRowHandlesAByte : Obligations.ExactlyOneRowHandlesAByte := by
  intro s i c b ho
  have hRow := i.framer.rowApplies_rowFor b
  refine ⟨hRow.wellFormed, hRow.rowByte?,
    ⟨_, exec_of_rowApplies ho hRow, everyByteCompletes s i c _ b ho (byte?_decodeByte b)⟩, ?_⟩
  intro row hb ne
  exact exec_of_not_rowApplies ho hb fun h => ne h.eq_rowFor

/-! ## Running status -/

section
variable {r d : Byte} {f : Framer}

/-- A status byte of length 2 or 3 starts a message (R125). -/
theorem Framer.hdrStatus_of_starts (len : 2 ≤ (lenOf r).val) (ts : Timestamp) (f : Framer) :
    f.hdrStatus r ts = { f with rs := some r, mbuf := [r], explen := lenOf r, st := .params } := by
  have ne0 : lenOf r ≠ 0 := by omega
  have ne1 : lenOf r ≠ 1 := by omega
  simp only [Framer.hdrStatus, if_neg ne0, if_neg ne1]

/-- A data byte under a running status of length 2 or 3 is the first byte appended to the message that
the running status starts (R128, R129, R150). -/
theorem Framer.hdrDataRs_eq_prmAppend (rs : f.rs = some r) (len : 2 ≤ (lenOf r).val)
    (ts : Timestamp) : f.hdrDataRs d ts =
      Framer.prmAppend d ts { f with mbuf := [r], explen := lenOf r, st := .params } := by
  have room : ¬ lenOf r ≤ 1 := by omega
  have complete : lenOf r = 2 ↔ 2 = (lenOf r).val := by omega
  simp only [Framer.hdrDataRs, rs, if_neg room, complete]
  rfl

/-- Stepping the running status again before a data byte leaves the same registers (R63, R95). -/
theorem Framer.step_step_running (st : f.st = .header) (rs : f.rs = some r) (status : 0x80#8 ≤ r)
    (ne : r ≠ 0xF0#8) (len : 2 ≤ (lenOf r).val) (data : d < 0x80#8) (ts : Timestamp) :
    (f.step r ts).step d ts = f.step d ts := by
  have takesR : f.takesStatus r = true :=
    Framer.takesStatus_iff.mpr ⟨st, isStatus_iff.mpr status, ne⟩
  have takesD : f.takesDataRs d = true :=
    Framer.takesDataRs_iff.mpr ⟨st, isStatus_eq_false.mpr data, by simp [Framer.rsValid, rs]⟩
  rw [Framer.step_of_takesStatus takesR, Framer.hdrStatus_of_starts len,
    Framer.step_of_takesDataRs takesD, Framer.hdrDataRs_eq_prmAppend rs len, ← rs]
  rfl

end

/-- Settles O51: after the data byte the registers are the same, so the bytes that follow do the
same. -/
theorem runningStatusStandsForItsByte : Obligations.RunningStatusStandsForItsByte := by
  intro f r d bs ts hInv st rs len data
  obtain ⟨status, ne⟩ := hInv.running r rs
  exact congrArg (Framer.stepAll bs ts)
    (Framer.step_step_running st rs status ne len data ts).symm

end Sys2Proof.Machine
end

section
/-! PROOFS of the feed family, the turns of a FEED: the byte a turn runs, the return, the default turn,
and the count of the turns left (40_feed_command.md R103, R104; 70_reset_and_hazards.md R206, R213). -/

namespace Sys2Proof.Machine

/-! ## Whose turn it is -/

/-- By the environment's event it is the turn of the instance that the event names. -/
theorem State.nextAction_of_turn {s : State} {h : Nat} {rest : List HostEvent}
    (hHost : s.host = .turn h :: rest) :
    s.nextAction = State.takeTurn { s with host := rest } h := by
  simp only [State.nextAction, hHost]

/-- By default it is the turn of the first instance with a FEED in progress. -/
theorem State.nextAction_of_default {s : State} {h : Nat} (hHost : s.host = [])
    (hFirst : s.firstFeeding = some h) : s.nextAction = s.takeTurn h := by
  simp only [State.nextAction, hHost, hFirst]

/-- A live instance with a FEED in progress, and none before it, is the first. -/
theorem State.firstFeeding_of_live {s : State} {h : Nat} {i : Instance} {c : FeedCall}
    (hi : s.live? h = some i) (hCall : i.call = some c)
    (idle : ∀ k < h, ∀ j, s.live? k = some j → j.call = none) : s.firstFeeding = some h := by
  obtain ⟨lt, at_h⟩ := List.getElem?_eq_some_iff.mp (State.live?_eq_some.mp hi)
  refine List.findIdx?_eq_some_iff_getElem.mpr ⟨lt, by simp [at_h, Slot.isFeeding, hCall], ?_⟩
  intro k hk
  have hPlace := List.getElem?_eq_getElem (hk.trans lt)
  cases hSlot : s.slots[k]'(hk.trans lt) with
  | live j =>
    rw [hSlot] at hPlace
    simp [Slot.isFeeding, idle k hk j (State.live?_eq_some.mpr hPlace)]
  | discarded => exact Bool.false_ne_true

/-- A FEED is in progress on the first instance that has one. -/
theorem State.live_of_firstFeeding {s : State} {h : Nat} (hFirst : s.firstFeeding = some h) :
    ∃ i c, s.live? h = some i ∧ i.call = some c := by
  obtain ⟨lt, hFeeding, -⟩ := List.findIdx?_eq_some_iff_getElem.mp hFirst
  have hPlace := List.getElem?_eq_getElem lt
  cases hSlot : s.slots[h] with
  | live i =>
    rw [hSlot] at hFeeding hPlace
    obtain ⟨c, hCall⟩ := Option.isSome_iff_exists.mp hFeeding
    exact ⟨i, c, State.live?_eq_some.mpr hPlace, hCall⟩
  | discarded =>
    rw [hSlot] at hFeeding
    cases hFeeding

/-! ## One turn -/

section
variable {s s' : State} {h : Nat} {i : Instance} {c : FeedCall}

/-- A turn with the cursor on a byte of the window runs the instruction of the byte. -/
theorem step_of_takeTurn_byte {b : Byte} (hTurn : s.nextAction = s'.takeTurn h)
    (hi : s'.live? h = some i) (hCall : i.call = some c) (inWindow : c.cursor < c.stop)
    (hRead : c.data.read c.cursor = some b) :
    step s = advanceOutcome (exec (decodeByte b) { s' with current := h }) := by
  simp only [step, hTurn, State.takeTurn_fetched hi hCall inWindow hRead]

/-- A turn with the window done is the return. -/
theorem step_of_takeTurn_finish (hTurn : s.nextAction = s'.takeTurn h) (hi : s'.live? h = some i)
    (hCall : i.call = some c) (done : c.stop ≤ c.cursor) :
    step s = .next (State.setLive { s' with current := h } h { i with call := none }) := by
  simp only [step, hTurn, State.takeTurn_finish hi hCall done]

end

/-- Settles O5: by event or by default the step is that turn. -/
theorem stepRunsTheDecodedByte : Obligations.StepRunsTheDecodedByte := by
  intro s h i c b hi hCall inWindow hRead
  refine ⟨fun rest hHost => ?_, fun hHost idle => ?_⟩
  · exact step_of_takeTurn_byte (s' := { s with host := rest }) (State.nextAction_of_turn hHost)
      hi hCall inWindow hRead
  · exact step_of_takeTurn_byte
      (State.nextAction_of_default hHost (State.firstFeeding_of_live hi hCall idle))
      hi hCall inWindow hRead

/-- Settles O6: with a FEED current the move past a byte is `FeedCall.advance` on that FEED. -/
theorem advanceMovesTheCursor : Obligations.AdvanceMovesTheCursor :=
  fun _ _ _ => State.advance_of_call

/-- Settles O52: by event or by default the step is the return. -/
theorem feedReturnsAfterItsWindow : Obligations.FeedReturnsAfterItsWindow := by
  intro s h i c hi hCall done
  refine ⟨fun rest hHost => step_of_finish hHost hi hCall done, fun hHost idle => ?_⟩
  exact step_of_takeTurn_finish
    (State.nextAction_of_default hHost (State.firstFeeding_of_live hi hCall idle)) hi hCall done

/-! ## The turns left -/

/-- A place needs no turn exactly when no FEED is in progress on it: the return is a turn too. -/
theorem Slot.remaining_eq_zero {slot : Slot} : slot.remaining = 0 ↔ slot.isFeeding = false := by
  cases slot with
  | live i => cases hCall : i.call <;> simp [Slot.remaining, Slot.isFeeding, hCall]
  | discarded => simp [Slot.remaining, Slot.isFeeding]

/-- No turn is needed exactly when no FEED is in progress anywhere. -/
theorem State.remaining_eq_zero {s : State} : s.remaining = 0 ↔ s.firstFeeding = none := by
  simp [State.remaining, State.firstFeeding, List.sum_eq_zero_iff_forall_eq_nat,
    Slot.remaining_eq_zero]

/-- The turns needed with the instance `j` at the place `h`: its own, and those of the other places. -/
theorem State.remaining_setLive {s : State} {h : Nat} (lt : h < s.slots.length) (j : Instance) :
    (s.setLive h j).remaining = ((s.slots.map Slot.remaining).take h).sum +
      (Slot.live j).remaining + ((s.slots.map Slot.remaining).drop (h + 1)).sum := by
  simp [State.remaining, List.map_set, List.sum_set, lt]

/-- Where an instance gives way to one that needs a turn fewer, the machine needs one fewer. -/
theorem State.remaining_of_turn {s : State} {h : Nat} {i j : Instance} (hi : s.live? h = some i)
    (hTurn : (Slot.live j).remaining + 1 = (Slot.live i).remaining) :
    (s.setLive h j).remaining + 1 = s.remaining := by
  have hBefore := State.remaining_setLive (State.live?_lt hi) i
  rw [State.setLive_same hi] at hBefore
  rw [hBefore, State.remaining_setLive (State.live?_lt hi)]
  omega

/-- The turn of an instance with a FEED in progress takes one of the turns that the FEED needs. -/
theorem step_of_takeTurn_remaining {s : State} {h : Nat} {i : Instance} {c : FeedCall}
    (hTurn : s.nextAction = s.takeTurn h) (hi : s.live? h = some i) (hCall : i.call = some c)
    (hInv : c.Inv) : ∃ j, step s = .next (State.setLive { s with current := h } h j) ∧
      (Slot.live j).remaining + 1 = (Slot.live i).remaining := by
  obtain ⟨wf, -, hStop⟩ := hInv
  by_cases inWindow : c.cursor < c.stop
  · obtain ⟨b, hRead⟩ := Memory.exists_read wf (inWindow.trans_le hStop)
    have ho : State.openCall? { s with current := h } = some (i, c) :=
      State.openCall?_eq_some.mpr ⟨hi, hCall⟩
    refine ⟨{ i with framer := i.framer.step b c.ts, call := some c.advance }, ?_, ?_⟩
    · rw [step_of_takeTurn_byte hTurn hi hCall inWindow hRead, exec_byte (byte?_decodeByte b)]
      exact advanceOutcome_onRow ho _
    · simp [Slot.remaining, hCall]
      omega
  · have done := Nat.not_lt.mp inWindow
    refine ⟨{ i with call := none }, step_of_takeTurn_finish hTurn hi hCall done, ?_⟩
    simp [Slot.remaining, hCall, Nat.sub_eq_zero_of_le done]

/-- Settles O42: with no event the first FEED in progress takes one of its turns. -/
theorem everyFeedEnds : Obligations.EveryFeedEnds := by
  intro s hInv hHost
  refine ⟨fun hZero => ?_, fun hPos => ?_⟩
  · simp only [step, State.nextAction, hHost, State.remaining_eq_zero.mp hZero]
  · cases hFirst : s.firstFeeding with
    | none => exact absurd (State.remaining_eq_zero.mpr hFirst) hPos.ne'
    | some h =>
      obtain ⟨i, c, hi, hCall⟩ := State.live_of_firstFeeding hFirst
      obtain ⟨j, hStep, hTurn⟩ := step_of_takeTurn_remaining
        (State.nextAction_of_default hHost hFirst) hi hCall ((hInv.live hi).2 c hCall)
      exact ⟨_, hStep, hHost, State.remaining_of_turn (s := { s with current := h }) hi hTurn⟩

end Sys2Proof.Machine
end

section
/-! PROOFS of the feed family, the window and the stream: the window a FEED opens and the loop over it
(40_feed_command.md R101 to R103, R110), what a STEP emits (R106, R107), and a stream cut into calls
(R109). -/

namespace Sys2Proof.Machine

/-! ## The window -/

theorem FeedCall.start?_of_window {data : List Byte} {off cnt : Int} {first stop : Nat}
    (hWindow : windowOf off cnt data.length = some (first, stop)) (ts : Timestamp) :
    FeedCall.start? data off cnt ts =
      some { data := Memory.ofBytes data, cursor := first, stop := stop, ts := ts } := by
  simp [FeedCall.start?, hWindow]

/-- A FEED out of range opens no window (R101). -/
theorem FeedCall.start?_of_outOfRange {data : List Byte} {off cnt : Int}
    (out : cnt ≤ 0 ∨ off < 0 ∨ (data.length : Int) ≤ off) (ts : Timestamp) :
    FeedCall.start? data off cnt ts = none := by
  simp [FeedCall.start?, windowOf, out]

/-- Settles O24: the call opens no window, and the instance is put back as it was. -/
theorem feedOutOfRangeIsNoOp : Obligations.FeedOutOfRangeIsNoOp := by
  intro s h i data off cnt ts hi idle out
  have hSame : { i with call := none } = i := by rw [← idle]
  refine (execFeed_of_idle hi idle data off cnt ts).trans ?_
  rw [FeedCall.start?_of_outOfRange out, hSame, State.setLive_same hi]

/-- Settles O25: the call opens the window of `windowOf`, over a buffer that reads as the caller's. -/
theorem feedOpensItsWindow : Obligations.FeedOpensItsWindow := by
  intro s h i data off cnt ts hi idle hCnt hOff hLt
  have hWindow : windowOf off cnt data.length =
      some (off.toNat, (min (off + cnt) data.length).toNat) := if_neg (by omega)
  obtain ⟨-, hFirst, hStop, lt, le⟩ := windowOf_some hWindow
  have hCall := execFeed_of_idle hi idle data off cnt ts
  rw [FeedCall.start?_of_window hWindow] at hCall
  exact ⟨_, hCall, hFirst, hStop, rfl, lt, le, Memory.read_ofBytes data⟩

/-- Settles O26: a whole buffer is in range unless it is empty. -/
theorem wholeBufferForm : Obligations.WholeBufferForm := by
  intro s h i bytes ts hi idle
  split_ifs with hEmpty
  · exact feedOutOfRangeIsNoOp s h i bytes 0 bytes.length ts hi idle (by simp [hEmpty])
  · refine (execFeed_of_idle hi idle bytes 0 bytes.length ts).trans ?_
    rw [FeedCall.start?_whole hEmpty]
    rfl

theorem slice_length {data : List Byte} {first stop : Nat} (le : stop ≤ data.length) :
    (slice data first stop).length = stop - first := by
  rw [slice, List.length_take, List.length_drop]
  omega

theorem slice_getElem? {data : List Byte} {first stop k : Nat} (lt : k < stop - first) :
    (slice data first stop)[k]? = data[first + k]? := by
  rw [slice, List.getElem?_take_of_lt lt, List.getElem?_drop]

/-- Settles O44: the call opens the window, and the turns run the loop over its slice. -/
theorem feedRefinesItsLoop : Obligations.FeedRefinesItsLoop := by
  intro s h i data off cnt ts rest first stop hi idle hWindow
  obtain ⟨-, -, -, lt, le⟩ := windowOf_some hWindow
  have hLength := slice_length (first := first) le
  have hCall := step_of_feed (s := { s with host := .feed h data off cnt ts ::
    (List.replicate (stop - first + 1) (.turn h) ++ rest) }) rfl hi idle
  rw [FeedCall.start?_of_window hWindow] at hCall
  have hLive := State.live?_setLive_self
    (s := { s with host := List.replicate (stop - first + 1) (.turn h) ++ rest }) hi
    { i with call := some { data := Memory.ofBytes data, cursor := first, stop := stop, ts := ts } }
  have hTurns := runSteps_turns (bs := slice data first stop) (by rw [hLength]; rfl) hLive rfl
    (by rw [hLength]; exact Nat.add_sub_of_le lt.le)
    fun k hk => by rw [Memory.read_ofBytes, slice_getElem? (hLength ▸ hk)]
  rw [hLength] at hTurns
  rw [Nat.add_comm, runSteps_succ_of_step hCall]
  refine hTurns.trans (congrArg _ ?_)
  refine (State.setLive_setLive { s with host := rest, current := h } h _ _).trans ?_
  rw [← idle]
  rfl

/-! ## What a STEP emits -/

/-- A STEP emits nothing, or one message under its timestamp. -/
theorem Framer.StepCase.out_eq {b : Byte} {ts : Timestamp} {f g : Framer} (h : f.StepCase b ts g) :
    g.out = f.out ∨ ∃ m, g.out = f.out ++ [{ msg := m, ts := ts }] := by
  cases h with
  | statusWhole | dataWhole | frameRepaired | frameCompleted | paramsCompleted =>
    exact .inr ⟨_, rfl⟩
  | _ => exact .inl rfl

theorem Framer.stepAll_out (bs : List Byte) (ts : Timestamp) (f : Framer) : ∃ es : List Emission,
    (f.stepAll bs ts).out = f.out ++ es ∧ es.length ≤ bs.length ∧ ∀ e ∈ es, e.ts = ts := by
  induction bs generalizing f with
  | nil => exact ⟨[], (List.append_nil _).symm, le_rfl, nofun⟩
  | cons b bs ih =>
    obtain ⟨es, hOut, hLength, hTs⟩ := ih (f.step b ts)
    rcases (f.step_case b ts).out_eq with hNone | ⟨m, hOne⟩
    · exact ⟨es, hOut.trans (by rw [hNone]), Nat.le_succ_of_le hLength, hTs⟩
    · refine ⟨{ msg := m, ts := ts } :: es, hOut.trans (by rw [hOne, ← List.append_cons]),
        Nat.succ_le_succ hLength, ?_⟩
      exact List.forall_mem_cons.mpr ⟨rfl, hTs⟩

/-- Settles O36: a row that answers made one STEP of the instance, under the timestamp of its FEED. -/
theorem oneStepEmitsAtMostOne : Obligations.OneStepEmitsAtMostOne := by
  refine ⟨fun s t i c k ho hk hx => ?_, fun f bs ts => f.stepAll_out bs ts⟩
  obtain ⟨b, i', c', ho', rfl⟩ := exec_row_next hk hx
  cases ho.symm.trans ho'
  obtain ⟨hi, -⟩ := State.openCall?_eq_some.mp ho
  rw [State.emitted_of_live (State.live?_setLive_self hi _), State.emitted_of_live hi]
  exact (i.framer.step_case b c.ts).out_eq

/-! ## A stream cut into calls -/

theorem Framer.stepAll_append (bs cs : List Byte) (ts : Timestamp) (f : Framer) :
    f.stepAll (bs ++ cs) ts = (f.stepAll bs ts).stepAll cs ts :=
  List.foldl_append

theorem Framer.stepAll_retime (g : Timestamp → Timestamp) (bs : List Byte) (ts : Timestamp)
    (f : Framer) : (f.retime g).stepAll bs (g ts) = (f.stepAll bs ts).retime g := by
  induction bs generalizing f with
  | nil => rfl
  | cons b bs ih =>
    have hStep := Framer.step_retime g ts b f
    exact (congrArg (Framer.stepAll bs (g ts)) hStep).trans (ih (f.step b ts))

/-- Under one timestamp for all, whole buffers stepped one after the other are one stream. -/
theorem Framer.feedAll_retime (t : Timestamp) (parts : List (List Byte × Timestamp)) (f : Framer) :
    (f.feedAll parts).retime (fun _ => t) =
      (f.retime fun _ => t).stepAll (parts.map Prod.fst).flatten t := by
  induction parts generalizing f with
  | nil => rfl
  | cons p parts ih =>
    calc (f.feedAll (p :: parts)).retime (fun _ => t)
        = ((f.stepAll p.1 p.2).retime fun _ => t).stepAll (parts.map Prod.fst).flatten t := ih _
      _ = ((f.retime fun _ => t).stepAll p.1 t).stepAll (parts.map Prod.fst).flatten t := by
        rw [← Framer.stepAll_retime]
      _ = _ := (Framer.stepAll_append p.1 (parts.map Prod.fst).flatten t _).symm

/-- Retiming keeps the byte lists that were emitted. -/
theorem Framer.map_msg_retime (g : Timestamp → Timestamp) (f : Framer) :
    (f.retime g).out.map Emission.msg = f.out.map Emission.msg := by
  simp [Framer.retime, Emission.retime, Function.comp_def]

/-- Registers that agree once retimed emitted the same byte lists and agree but for `out`. -/
theorem Framer.eq_of_retime_eq {g : Timestamp → Timestamp} {f f' : Framer}
    (h : f.retime g = f'.retime g) :
    f.out.map Emission.msg = f'.out.map Emission.msg ∧
      { f with out := [] } = { f' with out := [] } := by
  refine ⟨?_, congrArg (fun f : Framer => { f with out := [] }) h⟩
  rw [← Framer.map_msg_retime g f, h, Framer.map_msg_retime]

/-- Settles O45: both scripts run to the loops of their FEEDs, and under one timestamp for all these
are the loop over the same stream. -/
theorem splitInvariance : Obligations.SplitInvariance := by
  intro s h i parts ts hi idle
  obtain ⟨ta, hRunA, hLiveA⟩ := runSteps_feedScript (s := { s with host := _ })
    [((parts.map Prod.fst).flatten, ts)] rfl hi idle
  obtain ⟨tb, hRunB, hLiveB⟩ := runSteps_feedScript (s := { s with host := _ }) parts rfl hi idle
  have hSame : (i.framer.feedAll [((parts.map Prod.fst).flatten, ts)]).retime (fun _ => ts) =
      (i.framer.feedAll parts).retime fun _ => ts := by
    rw [Framer.feedAll_retime, Framer.feedAll_retime]
    exact congrArg (Framer.stepAll · ts _) (List.append_nil _)
  exact ⟨ta, tb, _, _, hRunA, hRunB, hLiveA, hLiveB, rfl, rfl, Framer.eq_of_retime_eq hSame⟩

end Sys2Proof.Machine
end

section
/-! PROOFS of the header family: what a byte does to an instance in Header, by its BYTE row and by
its STEP row alike (41_header_state.md R121 to R130), and a run of leading data bytes
(70_reset_and_hazards.md R204). -/

namespace Sys2Proof.Machine

/-! ## The outcomes in Header -/

section
variable {b d r : Byte} {f : Framer}

/-- A status byte of length 0 is dropped (R123). -/
theorem Framer.hdrStatus_of_dropped (len : lenOf b = 0) (ts : Timestamp) (f : Framer) :
    f.hdrStatus b ts = { f with rs := some b } := if_pos len

/-- A status byte of length 1 is emitted at once (R124). -/
theorem Framer.hdrStatus_of_whole (st : f.st = .header) (len : lenOf b = 1) (ts : Timestamp) :
    f.hdrStatus b ts = { f with
      rs := some b, mbuf := [], explen := 1, out := f.out ++ [{ msg := [b], ts := ts }] } := by
  simp only [Framer.hdrStatus, len, st]
  rfl

/-- A data byte that the running status has no room for is dropped (R127). -/
theorem Framer.hdrDataRs_of_noRoom (rs : f.rs = some r) (len : (lenOf r).val ≤ 1) (ts : Timestamp) :
    f.hdrDataRs d ts = f := by
  simp only [Framer.hdrDataRs, rs]
  exact if_pos len

/-- A data byte under a running status of length 2 is emitted with it at once (R128). -/
theorem Framer.hdrDataRs_of_whole (st : f.st = .header) (rs : f.rs = some r) (len : lenOf r = 2)
    (ts : Timestamp) : f.hdrDataRs d ts = { f with
      mbuf := [], explen := 2, out := f.out ++ [{ msg := [r, d], ts := ts }] } := by
  simp only [Framer.hdrDataRs, rs, len, st]
  rfl

/-- A data byte under a running status of length 3 starts a message with it (R129). -/
theorem Framer.hdrDataRs_of_starts (rs : f.rs = some r) (len : lenOf r = 3) (ts : Timestamp) :
    f.hdrDataRs d ts = { f with mbuf := [r, d], explen := 3, st := .params } := by
  simp only [Framer.hdrDataRs, rs, len]
  rfl

/-- A data byte before any running status is dropped (R130). -/
theorem Framer.step_leading_data (st : f.st = .header) (rs : f.rs = none) (data : b < 0x80#8)
    (ts : Timestamp) : f.step b ts = f :=
  Framer.step_of_takesDataNors
    (Framer.takesDataNors_iff.mpr ⟨st, isStatus_eq_false.mpr data, by simp [Framer.rsValid, rs]⟩) ts

end

/-- Settles O50, by induction on the bytes: each STEP is R130 and leaves the registers as they are. -/
theorem leadingDataDropped : Obligations.LeadingDataDropped := by
  intro f bs ts st rs data
  induction bs with
  | nil => rfl
  | cons b bs ih =>
    obtain ⟨hb, hbs⟩ := List.forall_mem_cons.mp data
    calc f.stepAll (b :: bs) ts
        = (f.step b ts).stepAll bs ts := rfl
      _ = f.stepAll bs ts := by rw [Framer.step_leading_data st rs hb]
      _ = f := ih hbs

/-! ## The BYTE row and the STEP row of a byte -/

/-- The byte of `DATA` is a data byte, whatever its field (R60, R65). -/
theorem dataByte_lt (v : BitVec 7) : 0#1 ++ v < 0x80#8 := by
  simp only [BitVec.lt_def, BitVec.toNat_append]
  simpa using v.isLt

section
variable {s : State} {i : Instance} {c : FeedCall} {b : Byte} {row : Instr}

/-- The BYTE row of a byte and the STEP row that applies to it both answer the STEP on that byte. -/
theorem exec_byte_and_row (ho : s.openCall? = some (i, c)) (hByte : row.byte? = some b)
    {stepRow : Instr} (hRow : i.framer.RowApplies b stepRow) : ∀ k ∈ [row, stepRow],
      exec k s = .next (s.setLive s.current { i with framer := i.framer.step b c.ts }) := by
  have byteRow := everyByteCompletes s i c row b ho hByte
  exact List.forall_mem_cons.mpr
    ⟨byteRow, List.forall_mem_singleton.mpr (exec_of_rowApplies ho hRow)⟩

/-- Both rows of a status byte other than 0xF0 are the transition of R122 in Header. -/
theorem exec_status_in_header (ho : s.openCall? = some (i, c)) (st : i.framer.st = .header)
    (hByte : row.byte? = some b) (status : 0x80#8 ≤ b) (ne : b ≠ 0xF0#8) :
    ∀ k ∈ [row, Instr.hdrStatus b],
      exec k s = .next (s.setLive s.current { i with framer := i.framer.hdrStatus b c.ts }) := by
  have takes := Framer.takesStatus_iff.mpr ⟨st, isStatus_iff.mpr status, ne⟩
  rw [← Framer.step_of_takesStatus takes]
  exact exec_byte_and_row ho hByte (.hdrStatus takes)

/-- Both rows of a data byte are the transition of R126 in Header under a running status. -/
theorem exec_data_in_header {r : Byte} (ho : s.openCall? = some (i, c)) (st : i.framer.st = .header)
    (rs : i.framer.rs = some r) (v : BitVec 7) :
    ∀ k ∈ [Instr.data v, Instr.hdrDataRs (0#1 ++ v)], exec k s =
      .next (s.setLive s.current { i with framer := i.framer.hdrDataRs (0#1 ++ v) c.ts }) := by
  have takes := Framer.takesDataRs_iff.mpr
    ⟨st, isStatus_eq_false.mpr (dataByte_lt v), by simp [Framer.rsValid, rs]⟩
  rw [← Framer.step_of_takesDataRs takes]
  exact exec_byte_and_row ho rfl (.hdrDataRs takes)

/-- Registers put back as they were leave the state as it was. -/
theorem State.setLive_framer_same (ho : s.openCall? = some (i, c)) {f : Framer}
    (same : f = i.framer) : s.setLive s.current { i with framer := f } = s := by
  subst same
  exact State.setLive_same (State.openCall?_eq_some.mp ho).1

end

/-! ## Status bytes -/

/-- Settles O9: both rows are the STEP on 0xF0, which in Header is R121. -/
theorem sysexStartOpensFrame : Obligations.SysexStartOpensFrame := by
  intro s i c ho st
  have inHeader := Framer.inHeader_iff.mpr st
  have both := exec_byte_and_row ho (row := .sysexStart) rfl (.hdrSysexStart rfl inHeader)
  rw [Framer.step_of_inHeader_start inHeader] at both
  exact both

/-- Settles O10: each byte of the list is a status byte of length 0. -/
theorem unrecognisedStatusDropped : Obligations.UnrecognisedStatusDropped := by
  intro s i c ho st p hp
  obtain ⟨hByte, status, ne, len⟩ :
      p.1.byte? = some p.2 ∧ 0x80#8 ≤ p.2 ∧ p.2 ≠ 0xF0#8 ∧ lenOf p.2 = 0 := by
    revert p
    decide
  rw [← Framer.hdrStatus_of_dropped len c.ts i.framer]
  exact exec_status_in_header ho st hByte status ne

/-- Settles O11: each byte of the list is a status byte of length 1. -/
theorem oneByteMessageEmitted : Obligations.OneByteMessageEmitted := by
  intro s i c ho st p hp
  obtain ⟨hByte, status, ne, len⟩ :
      p.1.byte? = some p.2 ∧ 0x80#8 ≤ p.2 ∧ p.2 ≠ 0xF0#8 ∧ lenOf p.2 = 1 := by
    revert p
    decide
  rw [← Framer.hdrStatus_of_whole st len c.ts]
  exact exec_status_in_header ho st hByte status ne

/-- Settles O12: each byte of the list, at every channel, is a status byte of the length given with
it, 2 or 3. -/
theorem statusStartsMessage : Obligations.StatusStartsMessage := by
  intro s i c ho st n p hp
  obtain ⟨hByte, status, ne, len, starts⟩ : p.1.byte? = some p.2.1 ∧ 0x80#8 ≤ p.2.1 ∧
      p.2.1 ≠ 0xF0#8 ∧ lenOf p.2.1 = p.2.2 ∧ 2 ≤ (lenOf p.2.1).val := by
    revert n p
    decide
  rw [← len, ← Framer.hdrStatus_of_starts starts c.ts i.framer]
  exact exec_status_in_header ho st hByte status ne

/-! ## Data bytes -/

/-- Settles O13: both rows are R127, which puts the registers back as they were. -/
theorem dataWithoutRoomDropped : Obligations.DataWithoutRoomDropped := by
  intro s i c v r ho st rs len k hk
  rw [exec_data_in_header ho st rs v k hk,
    State.setLive_framer_same ho (Framer.hdrDataRs_of_noRoom rs len c.ts)]

/-- Settles O14: both rows are R128. -/
theorem runningStatusTwoByteMessage : Obligations.RunningStatusTwoByteMessage := by
  intro s i c v r ho st rs len
  rw [← Framer.hdrDataRs_of_whole st rs len c.ts]
  exact exec_data_in_header ho st rs v

/-- Settles O15: both rows are R129. -/
theorem runningStatusStartsThreeByteMessage : Obligations.RunningStatusStartsThreeByteMessage := by
  intro s i c v r ho st rs len
  rw [← Framer.hdrDataRs_of_starts rs len c.ts]
  exact exec_data_in_header ho st rs v

/-- Settles O16: both rows are the STEP on the byte, and that is R130. -/
theorem dataWithoutRunningStatusDropped : Obligations.DataWithoutRunningStatusDropped := by
  intro s i c v ho st rs k hk
  have takes := Framer.takesDataNors_iff.mpr
    ⟨st, isStatus_eq_false.mpr (dataByte_lt v), by simp [Framer.rsValid, rs]⟩
  rw [exec_byte_and_row ho rfl (.hdrDataNors takes) k hk,
    State.setLive_framer_same ho (Framer.step_leading_data st rs (dataByte_lt v) c.ts)]

end Sys2Proof.Machine
end

section
/-! PROOFS of the sysex family: what a byte does to an instance in SysEx, by its BYTE row and by its
STEP row alike (42_sysex_state.md R141 to R143), and a run of bytes inside an open frame (R144;
70_reset_and_hazards.md R210). -/

namespace Sys2Proof.Machine

/-! ## The outcomes in SysEx -/

section
variable {b : Byte} {f : Framer}

/-- A restart in SysEx emits the open frame with a synthetic 0xF7 and stays in SysEx (R141). -/
theorem Framer.sxRestart_eq (st : f.st = .sysEx) (ts : Timestamp) : f.sxRestart ts = { f with
    sxbuf := [0xF0#8], out := f.out ++ [{ msg := f.sxbuf ++ [0xF7#8], ts := ts }] } := by
  rw [Framer.sxRestart, ← st]
  rfl

/-- The end of a frame emits it and empties its buffer (R143). -/
theorem Framer.sxEox_eq (ts : Timestamp) (f : Framer) : f.sxEox ts = { f with
    sxbuf := [], st := .header
    out := f.out ++ [{ msg := f.sxbuf ++ [0xF7#8], ts := ts }] } := rfl

/-- Any other byte only lengthens the open frame (R142). -/
theorem Framer.step_appends (st : f.st = .sysEx) (notStart : b ≠ 0xF0#8) (notEnd : b ≠ 0xF7#8)
    (ts : Timestamp) : f.step b ts = { f with sxbuf := f.sxbuf ++ [b] } :=
  Framer.step_of_takesAppend (Framer.takesAppend_iff.mpr ⟨st, notStart, notEnd⟩) ts

end

/-- Settles O49, by induction on the bytes: each STEP is R142, which leaves the frame open. -/
theorem openFrameAbsorbs : Obligations.OpenFrameAbsorbs := by
  intro f bs ts st noStart noEnd
  induction bs generalizing f with
  | nil => exact congrArg (fun x => { f with sxbuf := x }) (List.append_nil f.sxbuf).symm
  | cons b bs ih =>
    obtain ⟨notStart, noStart⟩ := List.ne_and_not_mem_of_not_mem_cons noStart
    obtain ⟨notEnd, noEnd⟩ := List.ne_and_not_mem_of_not_mem_cons noEnd
    calc f.stepAll (b :: bs) ts
        = (f.step b ts).stepAll bs ts := rfl
      _ = Framer.stepAll bs ts { f with sxbuf := f.sxbuf ++ [b] } := by
        rw [Framer.step_appends st notStart.symm notEnd.symm]
      _ = { f with sxbuf := (f.sxbuf ++ [b]) ++ bs } := ih _ st noStart noEnd
      _ = { f with sxbuf := f.sxbuf ++ b :: bs } := by rw [List.append_assoc, List.singleton_append]

/-! ## The BYTE rows and the STEP rows -/

/-- Settles O17: both rows are the STEP on 0xF0, which in SysEx is R141. -/
theorem restartRepairsFrame : Obligations.RestartRepairsFrame := by
  intro s i c ho st
  have inSysEx := Framer.inSysEx_iff.mpr st
  rw [← Framer.sxRestart_eq st, ← Framer.step_of_inSysEx_start inSysEx]
  exact exec_byte_and_row ho rfl (.sxRestart rfl inSysEx)

/-- Settles O18: the BYTE row of the byte and SX_APPEND are both its STEP, which in SysEx is R142. -/
theorem sysExAppends : Obligations.SysExAppends := by
  intro s i c k b ho st hk notStart notEnd
  rw [← Framer.step_appends st notStart notEnd c.ts]
  rcases hk with hByte | rfl
  · exact everyByteCompletes s i c k b ho hByte
  · exact exec_of_rowApplies ho
      (.sxAppend (Framer.takesAppend_iff.mpr ⟨st, notStart, notEnd⟩))

/-- Settles O19: both rows are the STEP on 0xF7, which in SysEx is R143. -/
theorem eoxCompletesFrame : Obligations.EoxCompletesFrame := by
  intro s i c ho st
  have inSysEx := Framer.inSysEx_iff.mpr st
  rw [← Framer.sxEox_eq, ← Framer.step_of_inSysEx_eox inSysEx]
  exact exec_byte_and_row ho rfl (.sxEox rfl inSysEx)

end Sys2Proof.Machine
end

section
/-! PROOFS of the params family: what a byte does to an instance in Params, by its BYTE row and by
PRM_APPEND alike (43_params_state.md R151, R152). -/

namespace Sys2Proof.Machine

section
variable {s : State} {i : Instance} {c : FeedCall} {k : Instr} {b : Byte} {f : Framer}

/-- In Params the BYTE row of a byte and PRM_APPEND on it are both R150. -/
theorem exec_in_params (ho : s.openCall? = some (i, c)) (st : i.framer.st = .params)
    (hk : k.byte? = some b ∨ k = .prmAppend b) :
    exec k s = .next (s.setLive s.current { i with framer := i.framer.prmAppend b c.ts }) := by
  have inParams := Framer.inParams_iff.mpr st
  rw [← Framer.step_of_inParams inParams]
  rcases hk with hByte | rfl
  · exact everyByteCompletes s i c k b ho hByte
  · exact exec_of_rowApplies ho (.prmAppend inParams)

/-- The message under way in Params begins with the running status, whatever is appended (R31). -/
theorem Framer.Inv.head?_append (hInv : f.Inv) (st : f.st = .params) (tail : List Byte) :
    (f.mbuf ++ tail).head? = f.rs := by
  obtain ⟨r, _, rs, mbuf, _⟩ := hInv.params st
  rw [mbuf, rs]
  rfl

/-- A message that lacks more than one byte is the status byte of a message of three: `explen` has
2 bits, and `mbuf` is not empty in Params (R24, R31). -/
theorem Framer.Inv.lengths_of_short (hInv : f.Inv) (st : f.st = .params)
    (short : f.mbuf.length + 1 < f.explen.val) : f.explen = 3 ∧ f.mbuf.length = 1 := by
  obtain ⟨r, tail, _, mbuf, _⟩ := hInv.params st
  have nonempty : 0 < f.mbuf.length := mbuf ▸ Nat.succ_pos tail.length
  have bound := f.explen.isLt
  exact ⟨Fin.ext (show f.explen.val = 3 by omega), by omega⟩

end

/-- Settles O20: R150 on a byte that fills the message is R151. -/
theorem paramsCompletesMessage : Obligations.ParamsCompletesMessage := by
  intro s i c k b ho st hk len
  have full : (i.framer.mbuf ++ [b]).length = i.framer.explen.val := List.length_append.trans len
  refine ⟨?_, full, fun hInv => hInv.head?_append st [b]⟩
  rw [exec_in_params ho st hk, Framer.prmAppend_of_complete full]
  rfl

/-- Settles O21: R150 on a byte that leaves the message short is R152. -/
theorem paramsWaitsForMore : Obligations.ParamsWaitsForMore := by
  intro s i c k b ho st hk short
  have notFull : (i.framer.mbuf ++ [b]).length ≠ i.framer.explen.val :=
    List.length_append.trans_ne short.ne
  refine ⟨by rw [exec_in_params ho st hk, Framer.prmAppend_of_incomplete notFull], fun hInv => ?_⟩
  obtain ⟨three, one⟩ := hInv.lengths_of_short st short
  exact ⟨three, by rw [List.length_append, one]; rfl⟩

end Sys2Proof.Machine
end

section
/-! PROOFS of the packetizer family: the loop of CHUNK cuts its input greedily (44_packetizer.md R162,
R171), so the chunks partition it (R161), and fed back they are one stream (R169). -/

namespace Sys2Proof

/-- A chunk has room for at least one byte (00_scope.md R9). -/
theorem Config.chunkMax_pos : 0 < Config.chunkMax := Nat.succ_pos _

end Sys2Proof

namespace Sys2Proof.Machine

section
variable {size : Nat} {bytes : List Byte} {t : Timestamp} {p : Packet}

/-! ## The chunks -/

/-- Chunk `k` of the greedy cut (R171). -/
def chunkAt (size : Nat) (bytes : List Byte) (t : Timestamp) (k : Nat) : Packet :=
  { bytes := slice bytes (k * size) (min ((k + 1) * size) bytes.length), ts := t }

/-- Chunk `k` is the next `size` bytes, or what is left of them. -/
theorem chunkAt_bytes (k : Nat) :
    (chunkAt size bytes t k).bytes = (bytes.drop (k * size)).take size := by
  rw [chunkAt, slice, List.take_eq_take_iff, List.length_drop, Nat.succ_mul]
  omega

theorem chunkAt_bytes_ne_nil {k : Nat} (hSize : 0 < size) (lt : k * size < bytes.length) :
    (chunkAt size bytes t k).bytes ≠ [] := by
  rw [chunkAt_bytes, Ne, List.take_eq_nil_iff, List.drop_eq_nil_iff]
  omega

/-- The first `m` chunks are the first `m * size` bytes. -/
theorem flatten_map_chunkAt (m : Nat) :
    (((List.range m).map (chunkAt size bytes t)).map Packet.bytes).flatten =
      bytes.take (m * size) := by
  induction m with
  | zero => rw [Nat.zero_mul]; rfl
  | succ m ih =>
    rw [List.range_succ, List.map_append, List.map_append, List.flatten_append, ih, Nat.succ_mul,
      List.take_add, ← chunkAt_bytes (t := t)]
    exact congrArg _ (List.append_nil _)

/-! ## The loop of CHUNK -/

/-- `r` rounds are enough where they can take all `n` bytes. -/
theorem ceilDiv_le_iff (hSize : 0 < size) {n r : Nat} : n ⌈/⌉ size ≤ r ↔ n ≤ r * size := by
  rw [ceilDiv_le_iff_le_mul hSize, Nat.mul_comm]

/-- After `r` rounds the loop stands at `min(r * size, n)`, and the rounds to come cut the chunks from
number `r` to the last. -/
theorem chunkLoop_eq (hSize : 0 < size) (fuel r : Nat)
    (hFuel : bytes.length ⌈/⌉ size ≤ r + fuel) :
    chunkLoop size bytes t fuel (min (r * size) bytes.length) =
      (List.range' r (bytes.length ⌈/⌉ size - r)).map (chunkAt size bytes t) := by
  induction fuel generalizing r with
  | zero => rw [Nat.sub_eq_zero_of_le (show _ ≤ r from hFuel)]; rfl
  | succ fuel ih =>
    by_cases hEnd : bytes.length ≤ r * size
    · rw [Nat.sub_eq_zero_of_le ((ceilDiv_le_iff hSize).mpr hEnd), min_eq_right hEnd, chunkLoop,
        if_neg (Nat.lt_irrefl _)]
      rfl
    · have hMore := mt (ceilDiv_le_iff hSize).mp hEnd
      have hLeft : bytes.length ⌈/⌉ size - r = bytes.length ⌈/⌉ size - (r + 1) + 1 := by omega
      have hNext := ih (r + 1) (by omega)
      rw [Nat.not_le] at hEnd
      rw [hLeft, List.range'_succ, List.map_cons, ← hNext, chunkLoop, min_eq_left hEnd.le, if_pos hEnd,
        ← Nat.succ_mul]
      rfl

/-- CHUNK cuts `ceil(n / size)` chunks, greedily (R162, R171). -/
theorem chunksOf_eq (hSize : 0 < size) :
    chunksOf size bytes t =
      (List.range (bytes.length ⌈/⌉ size)).map (chunkAt size bytes t) := by
  have hFuel : bytes.length ⌈/⌉ size ≤ bytes.length :=
    (ceilDiv_le_iff hSize).mpr (Nat.le_mul_of_pos_right _ hSize)
  have hLoop := chunkLoop_eq (t := t) hSize bytes.length 0 (by rwa [Nat.zero_add])
  rwa [Nat.zero_mul, Nat.zero_min, Nat.sub_zero, ← List.range_eq_range'] at hLoop

theorem mem_chunksOf (hSize : 0 < size) :
    p ∈ chunksOf size bytes t ↔ ∃ k, k * size < bytes.length ∧ chunkAt size bytes t k = p := by
  have hRound (k : Nat) : k < bytes.length ⌈/⌉ size ↔ k * size < bytes.length :=
    lt_iff_lt_of_le_iff_le (ceilDiv_le_iff hSize)
  simp only [chunksOf_eq hSize, List.mem_map, List.mem_range, hRound]

/-- The chunks concatenate to the input (R161 (a)). -/
theorem chunksOf_flatten (hSize : 0 < size) :
    ((chunksOf size bytes t).map Packet.bytes).flatten = bytes := by
  have hEnough : bytes.length ≤ bytes.length ⌈/⌉ size * size :=
    (ceilDiv_le_iff hSize).mp le_rfl
  rw [chunksOf_eq hSize, flatten_map_chunkAt, List.take_of_length_le hEnough]

theorem length_bytes_le_of_mem_chunksOf (hSize : 0 < size) (hp : p ∈ chunksOf size bytes t) :
    p.bytes.length ≤ size := by
  obtain ⟨k, -, rfl⟩ := (mem_chunksOf hSize).mp hp
  rw [chunkAt_bytes]
  exact List.length_take_le _ _

theorem ts_of_mem_chunksOf (hSize : 0 < size) (hp : p ∈ chunksOf size bytes t) : p.ts = t := by
  obtain ⟨k, -, rfl⟩ := (mem_chunksOf hSize).mp hp
  rfl

end

/-! ## CHUNK -/

/-- CHUNK answers for every input: it records its chunks, under the timestamp given or the draw. -/
theorem exec_chunk (s : State) (bytes : List Byte) (ts : Option Timestamp) :
    exec (.chunk bytes ts) s = .next { s with
      chunkCalls := s.chunkCalls ++
        [chunksOf Config.chunkMax bytes (ts.getD (Config.now s.nowDraws))]
      nowDraws := if ts.isSome then s.nowDraws else s.nowDraws + 1 } := by
  cases ts <;> rfl

/-- Settles O29: the chunks are those of the greedy cut, which have the four properties of R161. -/
theorem chunksPartitionTheInput : Obligations.ChunksPartitionTheInput := by
  intro s bytes ts
  refine ⟨_, ts.getD (Config.now s.nowDraws), exec_chunk s bytes ts,
    chunksOf_flatten Config.chunkMax_pos,
    fun p hp => length_bytes_le_of_mem_chunksOf Config.chunkMax_pos hp, ?_,
    fun p hp => ts_of_mem_chunksOf Config.chunkMax_pos hp, ?_, ?_⟩
  · rintro rfl
    rfl
  · rintro given rfl
    rfl
  · rintro rfl
    rfl

/-- Settles O30: the chunks are listed by their number in the greedy cut. -/
theorem chunksAreGreedy : Obligations.ChunksAreGreedy := by
  intro s bytes ts
  refine ⟨_, exec_chunk s bytes ts, ?_, fun k hk => ?_, fun p hp => ?_⟩
  · rw [chunksOf_eq Config.chunkMax_pos, List.length_map, List.length_range,
      Nat.ceilDiv_eq_add_pred_div]
  · simp only [chunksOf_eq Config.chunkMax_pos, List.length_map, List.length_range] at hk ⊢
    rw [List.getElem?_map, List.getElem?_range hk]
    rfl
  · obtain ⟨k, lt, rfl⟩ := (mem_chunksOf Config.chunkMax_pos).mp hp
    exact chunkAt_bytes_ne_nil Config.chunkMax_pos lt

/-! ## The round trip -/

/-- Whole buffers stepped one after the other under the same timestamp are one stream (R109). -/
theorem Framer.feedAll_of_same_ts {parts : List (List Byte × Timestamp)} {t : Timestamp}
    (hTs : ∀ p ∈ parts, p.2 = t) (f : Framer) :
    f.feedAll parts = f.stepAll (parts.map Prod.fst).flatten t := by
  induction parts generalizing f with
  | nil => rfl
  | cons p parts ih =>
    obtain ⟨hFirst, hRest⟩ := List.forall_mem_cons.mp hTs
    calc f.feedAll (p :: parts)
        = (f.stepAll p.1 t).feedAll parts := hFirst ▸ rfl
      _ = (f.stepAll p.1 t).stepAll (parts.map Prod.fst).flatten t := ih hRest _
      _ = _ := (Framer.stepAll_append p.1 (parts.map Prod.fst).flatten t f).symm

/-- Stepping the chunks of CHUNK one after the other is stepping its input. -/
theorem Framer.feedAll_chunksOf {size : Nat} (hSize : 0 < size) (bytes : List Byte) (t : Timestamp)
    (f : Framer) :
    f.feedAll ((chunksOf size bytes t).map fun p => (p.bytes, p.ts)) = f.stepAll bytes t := by
  have hTs : ∀ p ∈ (chunksOf size bytes t).map fun p => (p.bytes, p.ts), p.2 = t :=
    List.forall_mem_map.mpr fun p hp => ts_of_mem_chunksOf hSize hp
  rw [Framer.feedAll_of_same_ts hTs, List.map_map]
  exact congrArg (Framer.stepAll · t f) (chunksOf_flatten hSize)

/-- Settles O46: both scripts run to the loops of their FEEDs, and these are the same stream under the
same timestamp. -/
theorem chunksFedBackGiveTheSame : Obligations.ChunksFedBackGiveTheSame := by
  intro s h i bytes t hi idle
  obtain ⟨ta, hRunA, hLiveA⟩ := runSteps_feedScript (s := { s with host := _ })
    [(bytes, t)] rfl hi idle
  obtain ⟨tb, hRunB, hLiveB⟩ := runSteps_feedScript (s := { s with host := _ })
    ((chunksOf Config.chunkMax bytes t).map fun p => (p.bytes, p.ts)) rfl hi idle
  rw [Framer.feedAll_chunksOf Config.chunkMax_pos] at hLiveB
  exact ⟨_, ta, tb, _, exec_chunk s bytes (some t), hRunA, hRunB, hLiveA, hLiveB, rfl⟩

end Sys2Proof.Machine
end

section
/-! PROOFS of the exceptions family: where the invariant holds a step answers unless the environment
misuses FEED or DISCARD (60_exceptions.md R180), and the sink runs inside its FEED (R194;
70_reset_and_hazards.md R206). -/

namespace Sys2Proof.Machine

/-! ## Where a step stops -/

section
variable {s : State} {rest : List HostEvent}

/-- The environment's NEW is the step. -/
theorem step_of_new {sink : Nat} (hHost : s.host = .new sink :: rest) :
    step s = exec (.new sink) { s with host := rest } := by
  simp only [step, State.nextAction, hHost]

/-- The environment's DISCARD is the step. -/
theorem step_of_discard {h : Nat} (hHost : s.host = .discard h :: rest) :
    step s = exec (.discard h) { s with host := rest } := by
  simp only [step, State.nextAction, hHost]

/-- The environment's CHUNK is the step. -/
theorem step_of_chunk {bytes : List Byte} {ts : Option Timestamp}
    (hHost : s.host = .chunk bytes ts :: rest) :
    step s = exec (.chunk bytes ts) { s with host := rest } := by
  simp only [step, State.nextAction, hHost]

end

/-- Under the invariant a turn answers: it is idle, the byte its cursor stands on can be read, or it is
the return. -/
theorem exists_step_of_takeTurn {s s' : State} {h : Nat} (hTurn : s.nextAction = s'.takeTurn h)
    (hInv : s'.Inv) : ∃ t, step s = .next t := by
  by_cases hIdle : ∀ i, s'.live? h = some i → i.call = none
  · exact ⟨{ s' with current := h }, by simp only [step, hTurn, State.takeTurn_idle hIdle]⟩
  · push Not at hIdle
    obtain ⟨i, live, hCall⟩ := hIdle
    obtain ⟨c, call⟩ := Option.ne_none_iff_exists'.mp hCall
    by_cases inWindow : c.cursor < c.stop
    · obtain ⟨wf, -, le⟩ := (hInv.live live).2 c call
      obtain ⟨b, hRead⟩ := Memory.exists_read wf (inWindow.trans_le le)
      have ho : State.openCall? { s' with current := h } = some (i, c) :=
        State.openCall?_eq_some.mpr ⟨live, call⟩
      rw [step_of_takeTurn_byte hTurn live call inWindow hRead, exec_byte (byte?_decodeByte b)]
      exact ⟨_, advanceOutcome_onRow ho _⟩
    · exact ⟨_, step_of_takeTurn_finish hTurn live call (Nat.not_lt.mp inWindow)⟩

/-- A FEED or DISCARD may be made of an instance that is live with no FEED in progress. -/
theorem State.exists_idle_of_not_misuse {s : State} {h : Nat}
    (proper : ¬ ∀ i, s.live? h = some i → i.call.isSome) :
    ∃ i, s.live? h = some i ∧ i.call = none := by
  push Not at proper
  obtain ⟨i, live, hCall⟩ := proper
  exact ⟨i, live, by simpa using hCall⟩

/-- Settles O35: by the environment's event. NEW and CHUNK answer always, FEED and DISCARD on a live
idle instance, and a turn, by event or by default, by the invariant. -/
theorem onlyMisuseStops : Obligations.OnlyMisuseStops := by
  intro s hInv
  cases hHost : s.host with
  | nil =>
    cases hFirst : s.firstFeeding with
    | none => exact .inl ⟨s, by simp only [step, State.nextAction, hHost, hFirst]⟩
    | some h =>
      exact .inl (exists_step_of_takeTurn (State.nextAction_of_default hHost hFirst) hInv)
  | cons e rest =>
    cases e with
    | turn h => exact .inl (exists_step_of_takeTurn (State.nextAction_of_turn hHost) hInv)
    | new sink => exact .inl ⟨_, step_of_new hHost⟩
    | feed h data off cnt ts =>
      by_cases misuse : ∀ i, s.live? h = some i → i.call.isSome
      · exact .inr (.inl ⟨h, data, off, cnt, ts, rest, rfl, misuse⟩)
      · obtain ⟨i, live, idle⟩ := State.exists_idle_of_not_misuse misuse
        exact .inl ⟨_, step_of_feed hHost live idle⟩
    | discard h =>
      by_cases misuse : ∀ i, s.live? h = some i → i.call.isSome
      · exact .inr (.inr ⟨h, rest, rfl, misuse⟩)
      · obtain ⟨i, live, idle⟩ := State.exists_idle_of_not_misuse misuse
        exact .inl ⟨_, (step_of_discard hHost).trans
          (execDiscard_of_idle (s := { s with host := rest }) live idle)⟩
    | chunk bytes ts => exact .inl ⟨_, (step_of_chunk hHost).trans (exec_chunk _ bytes ts)⟩

/-! ## The sink -/

/-- Only the STEP of a byte emits, and the FEED of that byte is still in progress after it. -/
theorem SlotCase.feeding_of_emits {s t : State} {h : Nat} (hCase : SlotCase s t h)
    (emits : t.emitted h ≠ s.emitted h) : ∃ i, t.live? h = some i ∧ i.call.isSome := by
  cases hCase with
  | same _ eq => exact absurd (by rw [State.emitted, State.emitted, eq]) emits
  | byte i c b _ _ _ _ eq => exact ⟨_, State.live?_eq_some.mpr eq, rfl⟩
  | callSet i _ live _ _ eq =>
    exact absurd ((State.emitted_of_slot eq).trans (State.emitted_of_live live).symm) emits
  | new sink vacant eq =>
    have hBefore : s.emitted h = [] := by simp only [State.emitted, vacant]
    exact absurd ((State.emitted_of_slot eq).trans hBefore.symm) emits
  | discard i live eq =>
    exact absurd ((State.emitted_of_slot eq).trans (State.emitted_of_live live).symm) emits

/-- Settles O53: the FEED of the byte that emitted is in progress, which FEED and DISCARD refuse; the
other calls do not look at it. -/
theorem sinkRunsInsideItsFeed : Obligations.SinkRunsInsideItsFeed := by
  intro s t h hx emits
  obtain ⟨i, live, feeding⟩ := (step_slotCase hx h).feeding_of_emits emits
  exact ⟨execFeed_of_feeding live feeding, execDiscard_of_feeding live feeding,
    fun bytes ts => ⟨_, exec_chunk t bytes ts⟩, fun sink => ⟨_, rfl⟩,
    fun k j data off cnt ts hj idle => ⟨_, execFeed_of_idle hj idle data off cnt ts⟩⟩

end Sys2Proof.Machine
end

section
/-! PROOFS of the reset and hazards family: the environment's calls, each one step
(70_reset_and_hazards.md R216). -/

namespace Sys2Proof.Machine

/-- The environment's FEED is the step, whatever the instance: on an idle one `step_of_feed` says what
it answers. -/
theorem step_of_feed_eq_exec {s : State} {h : Nat} {data : List Byte} {off cnt : Int} {ts : Timestamp}
    {rest : List HostEvent} (hHost : s.host = .feed h data off cnt ts :: rest) :
    step s = exec (.feed h data off cnt ts) { s with host := rest } := by
  simp only [step, State.nextAction, hHost]

/-- Settles O7: one clause for each of the four calls the environment has. -/
theorem stepMakesTheHostsCall : Obligations.StepMakesTheHostsCall := by
  intro s rest
  refine ⟨?new, ?feed, ?discard, ?chunk⟩
  case new => exact fun _ => step_of_new
  case feed => exact fun _ _ _ _ _ => step_of_feed_eq_exec
  case discard => exact fun _ => step_of_discard
  case chunk => exact fun _ _ => step_of_chunk

end Sys2Proof.Machine
end
